-- ==== Sys2Proof/Word.lean ====
section
/-! DEFINITION. The words of the hardware: the 40-bit command header, its 16-bit operand fields, and bit vectors whose
length `L` depends on the chip count, kept as lists of bits with bit 0 first (rules R8, R9, R74). -/

namespace Sys2Proof

/-- The command header `cmd_hdr` (rule R74). -/
abbrev Header := BitVec 40

/-- An operand field `a` or `b`, an unsigned number (rules R7, R9). -/
abbrev Operand := BitVec 16

/-- A vector of bits, bit 0 first: element `i` is bit `i` (rule R8). Used where the length is the static `L = 8N`. -/
abbrev Bits := List Bool

/-- The vector of `n` bits whose bit `i` is bit `i` of the number `v` (rules R8, R83). -/
def bitsOfNat (n v : Nat) : Bits := (List.range n).map v.testBit

/-- The number a vector of bits is written as, bit 0 least significant (rules R8, R85). -/
def natOfBits : Bits → Nat
  | [] => 0
  | b :: bs => b.toNat + 2 * natOfBits bs

end Sys2Proof
end

