-- ==== Sys2Proof/Syntax.lean ====
section
/-! DEFINITION. The command set `SRC-CMD` (rules R2, R76, R77): one constructor per row of spec/opcode_table.json, and the
data the decoder speaks of. -/

namespace Sys2Proof

/-- BitOrder (rules R14, R24). -/
inductive BitOrder where
  | msf   -- MostSignificantFirst, encoded 0
  | lsf   -- LeastSignificantFirst, encoded 1
  deriving DecidableEq, Repr

/-- A command with its operands, as rule R76 assembles them. A pattern is the number whose bit `i` is `pat[i]`
(rules R43, R83); it has `n` bits when the command is well formed. -/
inductive Instr where
  | clear
  | refresh
  | setorder (o : BitOrder)
  | set (n : Operand) (pat : Nat)
  | setbit (idx : Operand) (s : Bool)
  | setbits (idx cnt : Operand) (s : Bool)
  | shift (n : Operand) (pat : Nat)
  | shiftstate (cnt : Operand) (s : Bool)
  | shiftonebit (s : Bool)
  deriving DecidableEq, Repr

/-- Why a header is no legal command (rule R78). Each of them is answered with the status IllegalCommand. -/
inductive Illegal where
  /-- `op` is 0x0 or one of 0xA to 0xF. -/
  | reservedOpcode
  /-- `rsv` is not 000. -/
  | reservedField
  /-- A field that the opcode does not use is not 0. -/
  | unusedField
  deriving DecidableEq, Repr

/-- One row of the opcode map of rule R77: a header `h` selects it when `(h AND mask) = pattern`. -/
structure Row where
  mnemonic : String
  pattern : Header
  mask : Header
  deriving DecidableEq, Repr

end Sys2Proof
end

