-- ==== Sys2Proof/WellFormed.lean ====
section
/-! DEFINITION. The well-formed commands: those that a header and a pattern bus can carry. -/

namespace Sys2Proof

/-- A pattern of bit length `n` is `pat[n-1:0]`: it has no bit at or above `n` (rules R43, R75). Every other operand is the
full range of its field (rule R76). -/
def Instr.wellFormed : Instr → Bool
  | .set n pat => decide (pat < 2 ^ n.toNat)
  | .shift n pat => decide (pat < 2 ^ n.toNat)
  | .clear | .refresh | .setorder _ | .setbit _ _ | .setbits _ _ _ | .shiftstate _ _ | .shiftonebit _ => true

/-- The same as a proposition. -/
abbrev Instr.WellFormed (i : Instr) : Prop := i.wellFormed = true

end Sys2Proof
end

