-- ==== Sys2Proof/Decode.lean ====
section
/-! DEFINITION. The decoder of a header and its pattern bus, total and rejecting by name (rules R74 to R78), the encoder
written from the same tables, and the opcode map of rule R77. -/

namespace Sys2Proof

/-! ### Fields of the header (rule R74) -/

/-- Bits 39:36, the opcode. -/
def opField (h : Header) : BitVec 4 := h.extractLsb' 36 4

/-- Bits 35:33, reserved. -/
def rsvField (h : Header) : BitVec 3 := h.extractLsb' 33 3

/-- Bit 32, the flag operand. -/
def flagField (h : Header) : Bool := h.getLsbD 32

/-- Bits 31:16, the first operand. -/
def aField (h : Header) : Operand := h.extractLsb' 16 16

/-- Bits 15:0, the second operand. -/
def bField (h : Header) : Operand := h.extractLsb' 0 16

/-- `{op, rsv, f, a, b}` with `rsv = 000` (rule R74). -/
def packHeader (op : BitVec 4) (f : Bool) (a b : Operand) : Header :=
  op ++ 0#3 ++ BitVec.ofBool f ++ a ++ b

/-! ### Operand values (rules R75, R76) -/

/-- The encoding of BitOrder: 0 = MSF, 1 = LSF (rule R24). -/
def BitOrder.ofFlag (f : Bool) : BitOrder := if f then .lsf else .msf

/-- The flag that encodes a BitOrder. -/
def BitOrder.flag : BitOrder → Bool
  | .msf => false
  | .lsf => true

/-- The pattern `pat[n-1:0] = cmd_pat[n-1:0]` (rule R75). -/
def patternOf (n : Operand) (bus : Nat) : Nat := bus % 2 ^ n.toNat

/-! ### Decoding -/

/-- A command whose unused fields must be zero: `rsv` is checked for every opcode, the other fields by `zero`
(rule R78). -/
def checkFields (h : Header) (zero : Bool) (i : Instr) : Except Illegal Instr :=
  if rsvField h ≠ 0#3 then .error .reservedField
  else if zero then .ok i
  else .error .unusedField

/-- The command a header with its pattern bus stands for, or why it is illegal (rules R76 to R78). -/
def decode (h : Header) (bus : Nat) : Except Illegal Instr :=
  let noF := !flagField h
  let noA := aField h == 0#16
  let noB := bField h == 0#16
  match (opField h).toNat with
  | 1 => checkFields h (noF && noA && noB) .clear
  | 2 => checkFields h (noF && noA && noB) .refresh
  | 3 => checkFields h (noA && noB) (.setorder (BitOrder.ofFlag (flagField h)))
  | 4 => checkFields h (noF && noB) (.set (aField h) (patternOf (aField h) bus))
  | 5 => checkFields h noB (.setbit (aField h) (flagField h))
  | 6 => checkFields h true (.setbits (aField h) (bField h) (flagField h))
  | 7 => checkFields h (noF && noB) (.shift (aField h) (patternOf (aField h) bus))
  | 8 => checkFields h noB (.shiftstate (aField h) (flagField h))
  | 9 => checkFields h (noA && noB) (.shiftonebit (flagField h))
  | _ => .error .reservedOpcode

/-! ### Encoding -/

/-- The header of a command (rules R76, R77). -/
def encodeHeader : Instr → Header
  | .clear => packHeader 1#4 false 0#16 0#16
  | .refresh => packHeader 2#4 false 0#16 0#16
  | .setorder o => packHeader 3#4 o.flag 0#16 0#16
  | .set n _ => packHeader 4#4 false n 0#16
  | .setbit idx s => packHeader 5#4 s idx 0#16
  | .setbits idx cnt s => packHeader 6#4 s idx cnt
  | .shift n _ => packHeader 7#4 false n 0#16
  | .shiftstate cnt s => packHeader 8#4 s cnt 0#16
  | .shiftonebit s => packHeader 9#4 s 0#16 0#16

/-- What a command puts on the pattern bus: its pattern, zero-filled; 0 for a command without one, which ignores the bus
(rules R75, R83). -/
def encodePattern : Instr → Nat
  | .set _ pat => pat
  | .shift _ pat => pat
  | .clear | .refresh | .setorder _ | .setbit _ _ | .setbits _ _ _ | .shiftstate _ _ | .shiftonebit _ => 0

/-- The words of a command: its header and its pattern bus. -/
def encode (i : Instr) : Header × Nat := (encodeHeader i, encodePattern i)

/-! ### The opcode map (rule R77) -/

/-- The nine rows with their match and mask values, as the table of rule R77 and spec/opcode_table.json print them. -/
def opcodeRows : List Row :=
  [⟨"CLEAR", 0x1000000000#40, 0xFFFFFFFFFF#40⟩,
   ⟨"REFRESH", 0x2000000000#40, 0xFFFFFFFFFF#40⟩,
   ⟨"SETORDER", 0x3000000000#40, 0xFEFFFFFFFF#40⟩,
   ⟨"SET", 0x4000000000#40, 0xFF0000FFFF#40⟩,
   ⟨"SETBIT", 0x5000000000#40, 0xFE0000FFFF#40⟩,
   ⟨"SETBITS", 0x6000000000#40, 0xFE00000000#40⟩,
   ⟨"SHIFT", 0x7000000000#40, 0xFF0000FFFF#40⟩,
   ⟨"SHIFTSTATE", 0x8000000000#40, 0xFE0000FFFF#40⟩,
   ⟨"SHIFTONEBIT", 0x9000000000#40, 0xFEFFFFFFFF#40⟩]

/-- "a header `h` selects the row when `(h AND mask) = match`" (rule R77). -/
abbrev Row.Selects (r : Row) (h : Header) : Prop := h &&& r.mask = r.pattern

/-- The mnemonic of a command (rules R77, R83). -/
def mnemonicOf : Instr → String
  | .clear => "CLEAR"
  | .refresh => "REFRESH"
  | .setorder _ => "SETORDER"
  | .set _ _ => "SET"
  | .setbit _ _ => "SETBIT"
  | .setbits _ _ _ => "SETBITS"
  | .shift _ _ => "SHIFT"
  | .shiftstate _ _ => "SHIFTSTATE"
  | .shiftonebit _ => "SHIFTONEBIT"

/-! ### The host's table words -/

/-- The header in the low 40 of an instruction's `nbits` bits: the header is one word, its bit 0 the word's bit 0
(rule R74). -/
def tableHeader (nbits w : Nat) : Header := BitVec.ofNat 40 (w % 2 ^ nbits)

/-- The pattern bus above the header: bits 40 and up; the table gives it no bits, so it is 0 for a word of 40 bits
(log entry 16). -/
def tablePattern (nbits w : Nat) : Nat := (w % 2 ^ nbits) >>> 40

/-- What the decoder reads from an instruction whose bits are `w`, numbered as spec/opcode_table.json numbers them. -/
def decodeTableWord (nbits w : Nat) : Option Instr :=
  match decode (tableHeader nbits w) (tablePattern nbits w) with
  | .ok i => some i
  | .error _ => none

end Sys2Proof
end

