-- ==== Sys2Proof/Config.lean ====
section
/-! DEFINITION. What an implementation fixes, the chip count, and the free values: the bits the spec leaves open. -/

namespace Sys2Proof

/-- The static parameter `N`, `1 <= N <= 8191` (rules R5, R7). `N = 0` cannot be written down: "a block with `N = 0` does
not exist". -/
abbrev ChipCount := { n : Nat // 1 ≤ n ∧ n ≤ 8191 }

namespace Config

/-- DESIGN CHOICE (log entry 1): the `N` of `State.reset`. Nothing else uses it: every meaning reads the `N` of the state
it is given, so statements about all states are about every `N`. -/
def chipCount : ChipCount := ⟨2, by decide⟩

/-- The free values, one bit per draw (rule R10, `undef`: "a fresh draw each time, under no law"). It has no body: no proof
can see any of its values (log entries 3 and 11). -/
opaque undefBit : Nat → Bool

/-- `count` fresh free bits, the first being draw number `draws`. -/
def undefBits (draws count : Nat) : Bits := (List.range count).map fun i => undefBit (draws + i)

end Config
end Sys2Proof
end

