-- ==== Sys2Proof/Machine/State.lean ====
section
/-! DEFINITION. The state of the block, of its environment and of its ports (rules R20, R55, R70), the reasons a step can
stop, and the state at hardware reset (rules R30, R230). -/

namespace Sys2Proof.Machine

/-- The four pin roles (rule R26). -/
inductive Pin where
  | data | clock | latch | reset
  deriving DecidableEq, Repr

/-- One pin event `Pin(p, v)`: one `setLevel` call (rules R10, R14). -/
structure PinEvent where
  pin : Pin
  level : Bool
  deriving DecidableEq, Repr

/-- The pin level registers `lvl[p]` (rule R26). -/
structure Levels where
  data : Bool
  clock : Bool
  latch : Bool
  reset : Bool
  deriving DecidableEq, Repr

/-- The reset values of the four registers: all low (rule R30). -/
def Levels.allLow : Levels := ⟨false, false, false, false⟩

/-- The external chain: shift stages and output pins, stage 0 the one the data line feeds (rule R55). -/
structure Chain where
  stage : Bits
  out : Bits
  deriving DecidableEq, Repr

/-- The outcome a response reports (rule R81). -/
inductive Status where
  | ok | lengthMismatch | indexOutOfRange | illegalCommand
  deriving DecidableEq, Repr

/-- One thing that comes from outside the block: what the host does at the ports, a reset, a loss of power, a disturbance of
the chain (rules R70, R71, R215, R233, R246; log entries 5, 9, 19 and 20). -/
inductive HostInput where
  /-- `cmd_valid = 1` with this header and this value on `cmd_pat`. -/
  | command (hdr : Header) (pat : Nat)
  /-- `rst_n` goes low and is released, between two steps. -/
  | reset
  /-- `rst_n` goes low inside the next step (INIT, or the command that follows in the queue), after `events` of its pin
  events, and is released. -/
  | resetAfter (events : Nat)
  /-- The power is lost and returns. -/
  | powerCycle
  /-- The chain loses power, is reset or is written by another driver while the block keeps running. -/
  | disturbance
  deriving DecidableEq, Repr

/-- Why the machine stops with a fault: a BitBuffer primitive used outside its precondition, "undefined/fatal" (rule R99).
Safe: no command reaches one in a well-formed state. -/
inductive Fault where
  /-- Raised by BB.read and BB.write at an index `>= L` (rules R90, R91, R99). Safe. -/
  | bitBufferIndex (index : Nat)
  /-- Raised by ShiftForward with a count `> L` (rules R93, R99). Safe. -/
  | shiftForwardCount (count : Nat)
  deriving DecidableEq, Repr

/-- Why a step is refused. -/
inductive Refusal where
  /-- Raised by `exec` for an instruction that has no meaning yet. Safe. No arm of this model uses it. -/
  | notModelled (mnemonic : String)
  deriving DecidableEq, Repr

/-- The machine. `buf` to `initDone` are the block's state of rule R20; `chain` is the environment model of rule R55; `rsp`
is the response port of rule R70; `chips`, `host`, `trace` and `draws` are the model's own. -/
structure State where
  /-- The static parameter `N` (rule R5); no step changes it. -/
  chips : ChipCount
  /-- The BitBuffer: bit `i` is element `i` (rules R20 to R22). -/
  buf : Bits
  /-- The BitOrder flag (rule R24). -/
  order : BitOrder
  /-- The pin level registers (rule R26). -/
  lvl : Levels
  /-- The four lines are configured as outputs (rule R26). -/
  oe : Bool
  /-- INIT has completed (rule R27). -/
  initDone : Bool
  /-- The external chain (rule R55). -/
  chain : Chain
  /-- The response port: `none` is `rsp_valid = 0` (rules R70, R81). -/
  rsp : Option Status
  /-- The pin events since the last hardware reset, oldest first (rules R10, R50). -/
  trace : List PinEvent
  /-- What the host presents next, first the next (rules R70, R71). -/
  host : List HostInput
  /-- How many free values have been drawn (rule R10, `undef`). -/
  draws : Nat
  deriving DecidableEq, Repr

/-- `L = 8 * N` (rule R6). -/
def State.len (s : State) : Nat := 8 * s.chips.val

/-- A vector of `L` zero bits. -/
def zeros (n : Nat) : Bits := List.replicate n false

/-- The state when the power comes on: the block at its hardware reset values (rules R30, R230), the chain at any value
(rules R61, R232), the host about to present `host`, `draws` free values already used. -/
def State.powerOn (n : ChipCount) (host : List HostInput) (draws : Nat) : State where
  chips := n
  buf := zeros (8 * n.val)
  order := .msf
  lvl := Levels.allLow
  oe := false
  initDone := false
  chain := ⟨Config.undefBits draws (8 * n.val), Config.undefBits (draws + 8 * n.val) (8 * n.val)⟩
  rsp := none
  trace := []
  host := host
  draws := draws + 16 * n.val

/-- The machine at hardware reset, before INIT runs (rule R230), with nothing presented by the host. -/
def State.reset : State := State.powerOn Config.chipCount [] 0

end Sys2Proof.Machine
end

