-- ==== Sys2Proof/Machine/Ops.lean ====
section
/-! DEFINITION. The named operations: pin events and the chain's reaction to them, the BitBuffer primitives, the serialiser,
the pulses of the latch sequencer, INIT, hardware reset, and the answers to a command. -/

namespace Sys2Proof.Machine

/-- The outcome of a meaning. -/
abbrev Result := Host.Outcome State Fault Refusal

/-- Go on with `f` after a step that gave a next state; a stop stays a stop. -/
def andThen (r : Result) (f : State → Result) : Result :=
  match r with
  | .next s => f s
  | .fault e => .fault e
  | .refused e => .refused e

/-! ### Pin levels and pin events -/

/-- `lvl[p]` (rule R10). -/
def Levels.get (l : Levels) : Pin → Bool
  | .data => l.data
  | .clock => l.clock
  | .latch => l.latch
  | .reset => l.reset

/-- `lvl[p] <- v` (rule R26). -/
def Levels.put (l : Levels) (p : Pin) (v : Bool) : Levels :=
  match p with
  | .data => { l with data := v }
  | .clock => { l with clock := v }
  | .latch => { l with latch := v }
  | .reset => { l with reset := v }

/-- One clock edge moves every stage on by one and takes `b` into stage 0; the last stage is lost (rule R56). -/
def shiftIn (b : Bool) (stage : Bits) : Bits := (b :: stage).take stage.length

/-- The stages all zero (rules R58, R59). -/
def Chain.cleared (c : Chain) : Chain := { c with stage := zeros c.stage.length }

/-- How the chain reacts to one event `Pin(p, v)` when the lines stood at `l` before it (rule R59, PRESUMED there: log entry
2). Rising clock edge: shift, or stay cleared while the reset line is low. Rising latch edge: copy the stages to the outputs.
Reset line low: clear the stages. Nothing else changes the chain. -/
def Chain.react (l : Levels) (p : Pin) (v : Bool) (c : Chain) : Chain :=
  match p, v with
  | .clock, true =>
    if l.clock then c else if l.reset then { c with stage := shiftIn l.data c.stage } else c.cleared
  | .latch, true => if l.latch then c else { c with out := c.stage }
  | .reset, false => c.cleared
  | _, _ => c

/-- `emit Pin(p, v)`: append the event to the trace, set the level register (rules R10, R26, R72). The chain sees the event
only while the lines are driven (rule R26). -/
def emit (p : Pin) (v : Bool) (s : State) : State :=
  { s with
    chain := if s.oe then s.chain.react s.lvl p v else s.chain
    lvl := s.lvl.put p v
    trace := s.trace ++ [⟨p, v⟩] }

/-- The events of a list one after another. -/
def replay (evs : List PinEvent) (s : State) : State :=
  evs.foldl (fun t e => emit e.pin e.level t) s

/-! ### Pulses (rules R95, R110, R111) -/

/-- `Transmit(b)`: data level, clock high, clock low (rule R95). -/
def transmit (b : Bool) (s : State) : State :=
  emit .clock false (emit .clock true (emit .data b s))

/-- `PulseLatch`: high then low (rule R110). -/
def pulseLatch (s : State) : State := emit .latch false (emit .latch true s)

/-- `PulseReset`: low then high (rule R111). -/
def pulseReset (s : State) : State := emit .reset true (emit .reset false s)

/-! ### BitBuffer primitives (rules R90 to R94, R99) -/

/-- Replace the BitBuffer. Only the primitives below and INIT use it (rule R21). -/
def setBuf (b : Bits) (s : State) : State := { s with buf := b }

/-- BB.read (rule R90); an index `>= L` is a fault (rule R99). -/
def bbRead (index : Nat) (s : State) : Except Fault Bool :=
  if index < s.len then .ok (s.buf.getD index false) else .error (.bitBufferIndex index)

/-- BB.write (rule R91); an index `>= L` is a fault (rule R99). -/
def bbWrite (index : Nat) (v : Bool) (s : State) : Result :=
  if index < s.len then .next (setBuf (s.buf.set index v) s) else .fault (.bitBufferIndex index)

/-- BB.fill0 (rule R92). -/
def bbFill0 (s : State) : State := setBuf (zeros s.len) s

/-- The buffer after ShiftForward: bit `i` is the old bit `i - count`, the `count` lowest bits are the fresh free bits `new`
(rule R93). -/
def shiftedBuf (new : Bits) (count len : Nat) (buf : Bits) : Bits := new ++ buf.take (len - count)

/-- BB.shiftForward (rule R93): the vacated bits are free values, one fresh draw each (log entry 11); a count `> L` is a
fault (rule R99). -/
def shiftForward (count : Nat) (s : State) : Result :=
  if count ≤ s.len then
    .next { s with
      buf := shiftedBuf (Config.undefBits s.draws count) count s.len s.buf
      draws := s.draws + count }
  else .fault (.shiftForwardCount count)

/-- The in-place copy of rule R94, from index `len - 1` down to `count`: what a sequential implementation does. The meanings
use `shiftForward`; that the two agree on the bits moved is a statement of this package. -/
def copyDown (count len : Nat) (buf : Bits) : Bits :=
  (List.range' count (len - count)).reverse.foldl (fun b i => b.set i (b.getD (i - count) false)) buf

/-! ### The serialiser (rules R96, R97) -/

/-- `seq(o, n)`: the order in which the indices `0 .. n-1` are taken (rule R96). -/
def seq (o : BitOrder) (n : Nat) : List Nat :=
  match o with
  | .msf => (List.range n).reverse
  | .lsf => List.range n

/-- Transmit the buffer's bits at these indices, in this order. -/
def transmitBits : List Nat → State → Result
  | [], s => .next s
  | i :: is, s =>
    match bbRead i s with
    | .ok b => transmitBits is (transmit b s)
    | .error e => .fault e

/-- `RetransmitAll`: the whole buffer, highest index first, whatever `order` is (rule R97). -/
def retransmitAll (s : State) : Result := transmitBits (seq .msf s.len) s

/-- For each pair in turn: Transmit the bit, then store it at the index (the loops of rules R130, R150, R152, R153). -/
def sendStore : List (Bool × Nat) → State → Result
  | [], s => .next s
  | (b, i) :: rest, s => andThen (bbWrite i b (transmit b s)) (sendStore rest)

/-- Write one value at each index in turn (the loop of rule R132). -/
def writeBits (v : Bool) : List Nat → State → Result
  | [], s => .next s
  | i :: is, s => andThen (bbWrite i v s) (writeBits v is)

/-! ### Answers to a command (rules R81, R201, R203) -/

/-- Give the response with this status. -/
def respond (st : Status) (s : State) : State := { s with rsp := some st }

/-- `status <- OK`: the command was performed in full. -/
def accept (s : State) : Result := .next (respond .ok s)

/-- `raise X`: the command does nothing at all, its response carries the code of `X` (rule R203). This is the hardware's one
way of taking an exception; there is nothing to return from (rule R210). -/
def reject (st : Status) (s : State) : Result := .next (respond st s)

/-- The code of a status on `rsp_status` (rule R81). -/
def Status.code : Status → BitVec 2
  | .ok => 0
  | .lengthMismatch => 1
  | .indexOutOfRange => 2
  | .illegalCommand => 3

/-- Write the BitOrder flag (rules R24, R115). -/
def setOrder (o : BitOrder) (s : State) : State := { s with order := o }

/-! ### Hardware reset and INIT (rules R112, R230, R231) -/

/-- `rst_n` low, then released, at this instant: the block's state at its reset values (rules R112, R230), a response not
given is not given (rule R233). The chain has seen no pin event, so it keeps what it holds (rule R233; log entry 9). -/
def hardwareReset (s : State) : State :=
  { s with
    buf := zeros s.len
    order := .msf
    lvl := Levels.allLow
    oe := false
    initDone := false
    rsp := none
    trace := [] }

/-- `oe <- 1`: the four lines are driven at the levels of their registers. A reset line that is driven low clears the stages
(rule R112: "which in the chain model only clears the stages earlier"; log entry 14). -/
def driveLines (s : State) : State :=
  { s with
    oe := true
    chain := if s.lvl.reset then s.chain else s.chain.cleared }

/-- `init_done <- 1` (rule R27). -/
def setInitDone (s : State) : State := { s with initDone := true }

/-- INIT (rule R112), line by line. -/
def initBlock (s : State) : State :=
  setInitDone (bbFill0 (pulseLatch (pulseReset (emit .reset true (setOrder .msf (bbFill0 (driveLines s)))))))

/-- The power is lost and returns: everything is as at power on, the host still presents what it was about to
(rules R61, R215; log entry 20). -/
def powerCycle (s : State) : State := State.powerOn s.chips s.host s.draws

/-- The chain loses power, is reset or is written by another driver: it holds any value, and the block cannot know
(rules R54, R61, R246; log entry 19). -/
def disturbChain (s : State) : State :=
  { s with
    chain := ⟨Config.undefBits s.draws s.len, Config.undefBits (s.draws + s.len) s.len⟩
    draws := s.draws + 2 * s.len }

/-! ### Ports (rules R70 to R73) -/

/-- `cmd_ready` between steps: 1 once INIT has completed (rule R71). -/
def cmdReady (s : State) : Bool := s.initDone

/-- `rsp_valid` (rule R70). -/
def rspValid (s : State) : Bool := s.rsp.isSome

/-- `rsp_status`, while `rsp_valid = 1` (rules R70, R81). -/
def rspStatus (s : State) : Option (BitVec 2) := s.rsp.map Status.code

/-- A line `sr_*`: driven at `lvl[p]` while `oe = 1`, at no level of the block's while `oe = 0` (rules R26, R72). -/
def lineLevel (s : State) (p : Pin) : Option Bool := if s.oe then some (s.lvl.get p) else none

/-- `obs_buf`, as the number whose bit `i` is `buf[i]` (rule R73). -/
def obsBuf (s : State) : Nat := natOfBits s.buf

/-- `obs_order`: 0 = MSF, 1 = LSF (rules R24, R73). -/
def obsOrder (s : State) : Bool := s.order == .lsf

/-- Logical byte `B[m] = buf[8m+7 : 8m]` (rule R22). -/
def byteLane (m : Nat) (s : State) : BitVec 8 := BitVec.ofNat 8 (natOfBits ((s.buf.drop (8 * m)).take 8))

/-- The header and the pattern that the host presents at the front of its queue. -/
def present (hdr : Header) (pat : Nat) (s : State) : State := { s with host := .command hdr pat :: s.host }

/-- The state in which the command port is ready: this one, or the one INIT leaves (rules R231, R234). -/
def untilReady (s : State) : State := if s.initDone then s else initBlock s

end Sys2Proof.Machine
end

