-- ==== Sys2Proof/Machine/Operands.lean ====
section
/-! DEFINITION. The operand forms: pattern bits, index runs, and the pairs (bit to send, index to store it at) that the
data-moving commands go through. -/

namespace Sys2Proof.Machine

/-- The value of a 16-bit operand, an unsigned number that is never wrapped (rule R9). -/
abbrev opVal (x : Operand) : Nat := x.toNat

/-- `pat[i]` (rules R10, R75). -/
def patBit (pat i : Nat) : Bool := pat.testBit i

/-- SET: `pat[i]` is sent and stored at `buf[i]`, `i` in traversal order (rule R130). -/
def setSends (o : BitOrder) (len pat : Nat) : List (Bool × Nat) :=
  (seq o len).map fun i => (patBit pat i, i)

/-- SHIFT: the `j`-th bit sent is stored at `buf[n-1-j]` (rule R150). -/
def shiftSends (o : BitOrder) (n pat : Nat) : List (Bool × Nat) :=
  (seq o n).zipIdx.map fun p => (patBit pat p.1, n - 1 - p.2)

/-- SHIFTSTATE: `cnt` copies of `v`, "most-significant-available-position first" (rule R152). -/
def stateSends (cnt : Nat) (v : Bool) : List (Bool × Nat) :=
  (List.range cnt).map fun j => (v, cnt - 1 - j)

/-- SHIFTONEBIT: one bit, stored at `buf[0]` (rule R153). -/
def oneSend (v : Bool) : List (Bool × Nat) := [(v, 0)]

/-- SETBITS: the indices `idx + k`, `k = 0 .. cnt-1` (rule R132). -/
def runIndices (idx cnt : Nat) : List Nat := (List.range cnt).map (idx + ·)

end Sys2Proof.Machine
end

