-- ==== Sys2Proof/Machine/Flags.lean ====
section
/-! DEFINITION. The hardware has no flags (rule R25). What a command reports is its status; this file holds the operand
preconditions that decide it, one per opcode that has one (rules R82, R202). -/

namespace Sys2Proof.Machine

/-- SET: "bit length == buffer length" (rules R202, R204). -/
def lengthIsExact (n : Operand) (s : State) : Bool := opVal n == s.len

/-- SHIFT and SHIFTSTATE: length or count at most the buffer length (rules R202, R205, R206). -/
def lengthFits (n : Operand) (s : State) : Bool := decide (opVal n ≤ s.len)

/-- SETBIT: the index is inside the buffer (rules R202, R207). -/
def indexInRange (idx : Operand) (s : State) : Bool := decide (opVal idx < s.len)

/-- SETBITS: `idx + cnt <= L`, a sum that does not wrap (rules R9, R202, R207). -/
def rangeInBuffer (idx cnt : Operand) (s : State) : Bool := decide (opVal idx + opVal cnt ≤ s.len)

end Sys2Proof.Machine
end

