-- ==== Sys2Proof/Machine/Control.lean ====
section
/-! DEFINITION. The control commands, which shift no data: CLEAR, REFRESH, SETORDER (rules R113 to R115). -/

namespace Sys2Proof.Machine

/-- CLEAR (rule R113): reset pulse, latch pulse, zero-fill. -/
def execClear (s : State) : Result := accept (bbFill0 (pulseLatch (pulseReset s)))

/-- REFRESH (rule R114): a bare latch pulse. -/
def execRefresh (s : State) : Result := accept (pulseLatch s)

/-- SETORDER (rule R115): no pin event. -/
def execSetorder (o : BitOrder) (s : State) : Result := accept (setOrder o s)

end Sys2Proof.Machine
end

