-- ==== Sys2Proof/Machine/Overwrite.lean ====
section
/-! DEFINITION. The overwrite commands: SET, SETBIT, SETBITS (rules R130 to R132). Each validates first, then sends `L` bits
and ends with a latch pulse (rule R133). -/

namespace Sys2Proof.Machine

/-- Latch and answer OK: how every data-moving command but SHIFTONEBIT ends (rules R51, R114). -/
def latchAndAccept (s : State) : Result := accept (pulseLatch s)

/-- SET (rule R130): transmit and store interleaved, bit by bit, in the order of BitOrder. -/
def execSet (n : Operand) (pat : Nat) (s : State) : Result :=
  if lengthIsExact n s then
    andThen (sendStore (setSends s.order s.len pat) s) latchAndAccept
  else reject .lengthMismatch s

/-- SETBIT (rule R131): write, then retransmit the whole buffer. -/
def execSetbit (idx : Operand) (v : Bool) (s : State) : Result :=
  if indexInRange idx s then
    andThen (andThen (bbWrite (opVal idx) v s) retransmitAll) latchAndAccept
  else reject .indexOutOfRange s

/-- SETBITS (rule R132): write the run, then retransmit the whole buffer. -/
def execSetbits (idx cnt : Operand) (v : Bool) (s : State) : Result :=
  if rangeInBuffer idx cnt s then
    andThen (andThen (writeBits v (runIndices (opVal idx) (opVal cnt)) s) retransmitAll) latchAndAccept
  else reject .indexOutOfRange s

end Sys2Proof.Machine
end

