-- ==== Sys2Proof/Machine/ShiftIn.lean ====
section
/-! DEFINITION. The shift-in commands: SHIFT, SHIFTSTATE, SHIFTONEBIT (rules R150, R152, R153). -/

namespace Sys2Proof.Machine

/-- SHIFT (rule R150): make room, then send the pattern in the order of BitOrder. -/
def execShift (n : Operand) (pat : Nat) (s : State) : Result :=
  if lengthFits n s then
    andThen (andThen (shiftForward (opVal n) s) (sendStore (shiftSends s.order (opVal n) pat))) latchAndAccept
  else reject .lengthMismatch s

/-- SHIFTSTATE (rule R152): make room, then send `cnt` copies of one value. -/
def execShiftstate (cnt : Operand) (v : Bool) (s : State) : Result :=
  if lengthFits cnt s then
    andThen (andThen (shiftForward (opVal cnt) s) (sendStore (stateSends (opVal cnt) v))) latchAndAccept
  else reject .lengthMismatch s

/-- SHIFTONEBIT (rule R153): one bit, and no latch pulse. -/
def execShiftonebit (v : Bool) (s : State) : Result :=
  andThen (andThen (shiftForward 1 s) (sendStore (oneSend v))) accept

end Sys2Proof.Machine
end

