-- ==== Sys2Proof/Machine/Dispatch.lean ====
section
/-! DEFINITION. The dispatch: one arm per constructor of Instr. -/

namespace Sys2Proof.Machine

def exec (i : Instr) (s : State) : Host.Outcome State Fault Refusal :=
  match i with
  | .clear => Sys2Proof.Machine.execClear s
  | .refresh => Sys2Proof.Machine.execRefresh s
  | .setorder o => Sys2Proof.Machine.execSetorder o s
  | .set n pat => Sys2Proof.Machine.execSet n pat s
  | .setbit idx v => Sys2Proof.Machine.execSetbit idx v s
  | .setbits idx cnt v => Sys2Proof.Machine.execSetbits idx cnt v s
  | .shift n pat => Sys2Proof.Machine.execShift n pat s
  | .shiftstate cnt v => Sys2Proof.Machine.execShiftstate cnt v s
  | .shiftonebit v => Sys2Proof.Machine.execShiftonebit v s

end Sys2Proof.Machine
end

