-- ==== Sys2Proof/Machine/Port.lean ====
section
/-! DEFINITION. What the block does with what the host presents: the command handshake, INIT, and a reset at any time
(rules R53, R71, R82, R231, R233). -/

namespace Sys2Proof.Machine

/-- One accepted command: header and pattern are sampled, the bus having `L` wires (rules R53, R75); an illegal header is
rejected before anything else (rules R78, R82, R208). -/
def runCommand (hdr : Header) (pat : Nat) (s : State) : Result :=
  match decode hdr (pat % 2 ^ s.len) with
  | .ok i => exec i s
  | .error _ => reject .illegalCommand s

/-- What the block does when no reset comes: INIT if it has not completed (rule R231), else the command presented
(rule R71), else it waits. A command presented before INIT has completed is not accepted and stays presented
(rules R71, R234). -/
def proceed (s : State) : Result :=
  if s.initDone then
    match s.host with
    | .command hdr pat :: rest => runCommand hdr pat { s with host := rest }
    | _ => .next s
  else .next (initBlock s)

/-- The pin events a step added to the trace. -/
def newEvents (s t : State) : List PinEvent := t.trace.drop s.trace.length

/-- A hardware reset after the first `events` pin events of a step from `s` to `t`: the chain has seen those and no more, the
step is abandoned without a response (rule R233; log entry 9). -/
def cutAfter (events : Nat) (s t : State) : State :=
  { hardwareReset (replay ((newEvents s t).take events) (driveLines s)) with host := t.host, draws := t.draws }

/-- One step: `rst_n`, the loss of power and a disturbance of the chain come before everything else (rules R233, R246). -/
def serve (s : State) : Result :=
  match s.host with
  | .reset :: rest => .next (hardwareReset { s with host := rest })
  | .resetAfter events :: rest =>
    andThen (proceed { s with host := rest }) fun t => .next (cutAfter events { s with host := rest } t)
  | .powerCycle :: rest => .next (powerCycle { s with host := rest })
  | .disturbance :: rest => .next (disturbChain { s with host := rest })
  | _ => proceed s

end Sys2Proof.Machine
end

