-- ==== Sys2Proof/Machine/Step.lean ====
section
/-! DEFINITION. The step, and how one command is placed so that the next step runs it. -/

namespace Sys2Proof.Machine

/-- One step of the machine (rule R11). -/
def step (s : State) : Host.Outcome State Fault Refusal := serve s

/-- `s` with the instruction whose bits are `w` presented at the command port as the next thing the host does. A command is
accepted only once INIT has completed (rule R71), so INIT has run (log entry 6). -/
def State.withFetchWord (s : State) (nbits w : Nat) : State :=
  present (tableHeader nbits w) (tablePattern nbits w) (untilReady s)

end Sys2Proof.Machine
end

