-- ==== Sys2Proof/Safety.lean ====
section
/-! DEFINITION. What counts as a safe state and run, in the terms the statements use: the form of a state, the idle levels,
the invariant of the block, the relations between buffer and chain, and the event lists of the commands. -/

namespace Sys2Proof.Machine

/-! ### The form of a state -/

/-- The three bit vectors have `L` bits (rules R6, R20, R55). -/
abbrev State.WF (s : State) : Prop :=
  s.buf.length = s.len ∧ s.chain.stage.length = s.len ∧ s.chain.out.length = s.len

/-- The block can take a command: INIT has completed, the lines are driven and idle (rules R32, R116). -/
abbrev State.Ready (s : State) : Prop :=
  s.initDone = true ∧ s.oe = true ∧ s.lvl.clock = false ∧ s.lvl.latch = false ∧ s.lvl.reset = true

/-- The block's state at hardware reset, before INIT (rules R30, R230). -/
abbrev State.AtReset (s : State) : Prop :=
  s.buf = zeros s.len ∧ s.order = .msf ∧ s.lvl = Levels.allLow ∧ s.oe = false ∧ s.initDone = false ∧
    s.rsp = none ∧ s.trace = []

/-- The levels a trace leaves, from the reset levels on (rules R10, R172). -/
def levelsAfter (evs : List PinEvent) : Levels := evs.foldl (fun l e => l.put e.pin e.level) Levels.allLow

/-! ### The shape of a trace (rule R186) -/

/-- The whole pulses a trace is made of. -/
inductive Pulse where
  | bit (b : Bool)
  | latch
  | reset
  deriving DecidableEq, Repr

/-- The events of one pulse (rules R95, R110, R111). -/
def Pulse.events : Pulse → List PinEvent
  | .bit b => [⟨.data, b⟩, ⟨.clock, true⟩, ⟨.clock, false⟩]
  | .latch => [⟨.latch, true⟩, ⟨.latch, false⟩]
  | .reset => [⟨.reset, false⟩, ⟨.reset, true⟩]

/-- The events of a list of pulses, none of them interleaved. -/
def pulseEvents (ps : List Pulse) : List PinEvent := ps.flatMap Pulse.events

/-- The events of Transmits of these bits, in this order (rule R95). -/
def bitEvents (bits : Bits) : List PinEvent := pulseEvents (bits.map .bit)

/-- The five events of INIT (rule R112). -/
def initEvents : List PinEvent := ⟨.reset, true⟩ :: pulseEvents [.reset, .latch]

/-- A trace since hardware reset: empty, or `Pin(RESET,1)` and then whole pulses (rule R186). -/
def PulseTrain (evs : List PinEvent) : Prop :=
  evs = [] ∨ ∃ ps : List Pulse, evs = ⟨.reset, true⟩ :: pulseEvents ps

/-! ### The invariant -/

/-- The invariant of the machine: the form of the state; reset values before INIT and idle levels after it; level registers
as the trace left them; a trace of whole pulses (rules R32, R116, R170, R172, R186, R230). -/
structure Inv (s : State) : Prop where
  wf : s.WF
  beforeInit : s.initDone = false → s.AtReset
  afterInit : s.initDone = true → s.Ready
  levels : s.lvl = levelsAfter s.trace
  shape : PulseTrain s.trace

/-! ### The buffer and the chain -/

/-- `stage[k] = buf[k]` for every `k` (48_laws.md, Notation; rule R60). -/
abbrev State.Mirror (s : State) : Prop := s.chain.stage = s.buf

/-- `out = stage` (48_laws.md, Notation; rule R60). -/
abbrev State.Visible (s : State) : Prop := s.chain.out = s.chain.stage

/-- The stages after these bits were sent, in this order: the first bit sent travels farthest (rule R98). -/
def sentStages (bits stage : Bits) : Bits := (bits.reverse ++ stage).take stage.length

/-- The level of the data line after these bits were sent. -/
def lastSent (bits : Bits) (level : Bool) : Bool := bits.getLastD level

/-- The bits a pattern of length `n` is sent as, in traversal order (rules R96, R130, R150). -/
def patternBits (o : BitOrder) (n pat : Nat) : Bits := (seq o n).map pat.testBit

/-- The `n` bits a SHIFT of a pattern leaves at indices `0 .. n-1`: the pattern under MSF, its reversal under LSF
(rule R151). -/
def shiftedInBits (o : BitOrder) (n pat : Nat) : Bits :=
  match o with
  | .msf => bitsOfNat n pat
  | .lsf => (bitsOfNat n pat).reverse

/-- The buffer with `v` at the indices `idx <= k < idx + cnt` (rule R132). -/
def runSet (idx cnt : Nat) (v : Bool) (buf : Bits) : Bits :=
  buf.mapIdx fun k b => if idx ≤ k ∧ k < idx + cnt then v else b

/-! ### Answers (rules R81, R202, R203) -/

/-- A rejection: the response is this status, `rsp_status` carries this code, nothing else changes. -/
abbrev Rejects (r : Result) (s : State) (st : Status) (code : BitVec 2) : Prop :=
  r = .next { s with rsp := some st } ∧ rspStatus { s with rsp := some st } = some code

/-- An acceptance: the command completes with status OK, code 0 on `rsp_status`. -/
abbrev Accepts (r : Result) : Prop := ∃ t, r = .next t ∧ t.rsp = some .ok ∧ rspStatus t = some 0

/-! ### Illegal headers (rule R78) -/

/-- The conditions of rule R78 under which a header is illegal, field by field. -/
abbrev IllegalFields (h : Header) : Prop :=
  (opField h = 0#4 ∨ 0xA#4 ≤ opField h) ∨ rsvField h ≠ 0#3 ∨
    (flagField h = true ∧ opField h ∈ [1#4, 2#4, 4#4, 7#4]) ∨
    (aField h ≠ 0#16 ∧ opField h ∈ [1#4, 2#4, 3#4, 9#4]) ∨
    (bField h ≠ 0#16 ∧ opField h ≠ 6#4)

/-! ### Event counts (rule R186) -/

/-- The number of pin events of an accepted command (rule R186). -/
def acceptedEvents (len : Nat) : Instr → Nat
  | .clear => 4
  | .refresh => 2
  | .setorder _ => 0
  | .set _ _ | .setbit _ _ | .setbits _ _ _ => 3 * len + 2
  | .shift n _ => 3 * n.toNat + 2
  | .shiftstate cnt _ => 3 * cnt.toNat + 2
  | .shiftonebit _ => 3

/-! ### Sequences of commands -/

/-- Commands one after another (rule R50). -/
def execAll : List Instr → State → Result
  | [], s => .next s
  | i :: is, s => andThen (exec i s) (execAll is)

end Sys2Proof.Machine
end

