-- ==== Sys2Proof/Certificates/Slice0/Obligations.lean ====
section
/-! DEFINITION. The statements about the model, for the provers. Each docstring names the rule of spec/ it formalises. -/

open Sys2Proof Sys2Proof.Machine

/-! ### Encoding -/

/-- Decoding an encoded well-formed command gives it back, every operand at every value of its field (rules R74 to R77). -/
def Obligations.DecodeEncodeAgree : Prop :=
  ∀ i : Instr, i.WellFormed → decode (encode i).1 (encode i).2 = .ok i

/-- A legal header has one meaning: the command it decodes to encodes to it, is well formed, and carries the pattern of the
bus exactly for SET and SHIFT (rules R75 to R78). -/
def Obligations.EncodeDecodeAgree : Prop :=
  ∀ (h : Header) (bus : Nat) (i : Instr), decode h bus = .ok i →
    i.WellFormed ∧ encodeHeader i = h ∧
      encodePattern i = if opField h = 4#4 ∨ opField h = 7#4 then patternOf (aField h) bus else 0

/-- Rule R78 whole: the field conditions say which headers are illegal; they are the headers that no row selects; such a
header is rejected with IllegalCommand, code 3 on the response port (rule R81), and no other effect; every other header
decodes; the all-zero header is illegal. -/
def Obligations.IllegalHeadersAreRejected : Prop :=
  (∀ h : Header, IllegalFields h ↔ ¬ ∃ r ∈ opcodeRows, r.Selects h) ∧
  (∀ (h : Header) (pat : Nat) (s : State), IllegalFields h → Rejects (runCommand h pat s) s .illegalCommand 3) ∧
  (∀ (h : Header) (bus : Nat), ¬ IllegalFields h → ∃ i, decode h bus = .ok i) ∧
  IllegalFields 0#40

/-- No header selects two rows (rule R77: "The rows are disjoint"). -/
def Obligations.OpcodeRowsAreDisjoint : Prop :=
  ∀ (h : Header) (r q : Row), r ∈ opcodeRows → q ∈ opcodeRows → r.Selects h → q.Selects h → r = q

/-- Words the spec writes out decode to the commands it writes beside them, one per command at least, and three illegal
ones (95_test_vectors.md V12 to V72). -/
def Obligations.WrittenWordsDecode : Prop :=
  decode 0x1000000000#40 0 = .ok .clear ∧
  decode 0x2000000000#40 0 = .ok .refresh ∧
  decode 0x3100000000#40 0 = .ok (.setorder .lsf) ∧
  decode 0x3000000000#40 0 = .ok (.setorder .msf) ∧
  decode 0x4000100000#40 0xA500 = .ok (.set 16 0xA500) ∧
  decode 0x5100030000#40 0 = .ok (.setbit 3 true) ∧
  decode 0x6100060004#40 0 = .ok (.setbits 6 4 true) ∧
  decode 0x60000E0003#40 0 = .ok (.setbits 14 3 false) ∧
  decode 0x7000040000#40 0xFB = .ok (.shift 4 0xB) ∧
  decode 0x8100030000#40 0 = .ok (.shiftstate 3 true) ∧
  decode 0x9100000000#40 0 = .ok (.shiftonebit true) ∧
  decode 0xA000000000#40 0 = .error .reservedOpcode ∧
  decode 0x5200000000#40 0 = .error .reservedField ∧
  decode 0x4100030000#40 0 = .error .unusedField

/-- The pattern bus (rule R75 whole): only its bits below the pattern's length matter, only to SET and SHIFT, and not at all
when the length is above `L`. -/
def Obligations.PatternBusIsReadBelowItsLength : Prop :=
  ∀ (h : Header) (p q : Nat) (s : State),
    (opField h = 4#4 ∨ opField h = 7#4 → (aField h).toNat ≤ s.len →
      ∀ k < (aField h).toNat, p.testBit k = q.testBit k) →
    runCommand h p s = runCommand h q s

/-! ### Primitives -/

/-- What Transmit, PulseLatch and PulseReset do to the chain on driven lines (rules R56 to R58 whole): the event-level chain
of rule R59 agrees with the pulse-level one. Each pulse starts from its own idle level (rules R95, R110). -/
def Obligations.PulsesActOnTheChain : Prop :=
  ∀ (s : State) (b : Bool), s.WF → s.oe = true →
    (s.lvl.reset = true → s.lvl.clock = false →
      (transmit b s).chain.stage[0]? = some b ∧
      (∀ k, 1 ≤ k → k < s.len → (transmit b s).chain.stage[k]? = s.chain.stage[k - 1]?) ∧
      (transmit b s).chain.stage.length = s.len ∧ (transmit b s).chain.out = s.chain.out) ∧
    (s.lvl.latch = false →
      (pulseLatch s).chain.out = s.chain.stage ∧ (pulseLatch s).chain.stage = s.chain.stage) ∧
    ((pulseReset s).chain.stage = zeros s.len ∧ (pulseReset s).chain.out = s.chain.out)

/-- The traversal order `seq(o, n)` (rule R96 whole). -/
def Obligations.TraversalOrderIsSeq : Prop :=
  ∀ n : Nat, (seq .msf n).length = n ∧ (seq .lsf n).length = n ∧
    ∀ j < n, (seq .msf n)[j]? = some (n - 1 - j) ∧ (seq .lsf n)[j]? = some j

/-- BB.read and BB.write inside the buffer, and their fault outside it (rules R90, R91, R99). -/
def Obligations.BufferPrimitivesReadAndWrite : Prop :=
  ∀ (s : State) (i : Nat) (v : Bool), s.WF →
    (i < s.len →
      (∃ b, s.buf[i]? = some b ∧ bbRead i s = .ok b) ∧
      (∃ t, bbWrite i v s = .next t ∧ t = { s with buf := t.buf } ∧ bbRead i t = .ok v ∧
        ∀ k, k ≠ i → bbRead k t = bbRead k s)) ∧
    (s.len ≤ i → bbRead i s = .error (.bitBufferIndex i) ∧ bbWrite i v s = .fault (.bitBufferIndex i))

/-- ShiftForward (rule R93 whole): every bit moves up by `count`, the `count` lowest bits are fresh free values, nothing else
changes; a count above `L` is a fault. -/
def Obligations.ShiftForwardMovesBits : Prop :=
  ∀ (s : State) (count : Nat), s.WF →
    (count ≤ s.len → ∃ t, shiftForward count s = .next t ∧ t = { s with buf := t.buf, draws := s.draws + count } ∧
      t.buf.length = s.len ∧
      (∀ i, count ≤ i → i < s.len → t.buf[i]? = s.buf[i - count]?) ∧
      (∀ i < count, t.buf[i]? = some (Config.undefBit (s.draws + i)))) ∧
    (s.len < count → shiftForward count s = .fault (.shiftForwardCount count))

/-- The in-place copy from the highest index down moves exactly the bits that ShiftForward moves (rule R94). -/
def Obligations.InPlaceCopyRefinesShiftForward : Prop :=
  ∀ (count len : Nat) (buf new : Bits), buf.length = len → count ≤ len → new.length = count →
    new ++ (copyDown count len buf).drop count = shiftedBuf new count len buf

/-- RetransmitAll (rule R97 whole): the whole buffer on the wire, highest index first whatever `order` is, `3 * L` events; the
stages equal the buffer afterwards, whatever they held; nothing else changes. -/
def Obligations.RetransmitAllSendsTheBuffer : Prop :=
  ∀ s : State, s.WF → s.Ready →
    (bitEvents s.buf.reverse).length = 3 * s.len ∧
    retransmitAll s = .next { s with
      lvl := { s.lvl with data := s.buf.getD 0 false }
      chain := { stage := s.buf, out := s.chain.out }
      trace := s.trace ++ bitEvents s.buf.reverse }

/-- A run of Transmits (rule R98 whole): the first bit sent travels farthest, the old stages move up; of more than `L` bits
only the last `L` remain. -/
def Obligations.RunOfTransmissionsFillsTheStages : Prop :=
  ∀ (s : State) (bits : Bits), s.WF → s.Ready →
    (bits.length ≤ s.len →
      (∀ j < bits.length, (replay (bitEvents bits) s).chain.stage[bits.length - 1 - j]? = bits[j]?) ∧
      (∀ k, bits.length ≤ k → k < s.len →
        (replay (bitEvents bits) s).chain.stage[k]? = s.chain.stage[k - bits.length]?)) ∧
    (s.len < bits.length → ∀ j < s.len,
      (replay (bitEvents bits) s).chain.stage[s.len - 1 - j]? = bits[bits.length - s.len + j]?) ∧
    (replay (bitEvents bits) s).chain.stage.length = s.len

/-! ### What each command does: its result, its frame, and that it completes -/

/-- CLEAR (rules R113, R179): a reset pulse, a latch pulse, buffer, stages and outputs all zero; nothing else changes. -/
def Obligations.ClearZeroesBufferAndOutputs : Prop :=
  ∀ s : State, s.WF → s.Ready →
    exec .clear s = .next { s with
      buf := zeros s.len
      chain := { stage := zeros s.len, out := zeros s.len }
      trace := s.trace ++ [⟨.reset, false⟩, ⟨.reset, true⟩, ⟨.latch, true⟩, ⟨.latch, false⟩]
      rsp := some .ok }

/-- REFRESH (rule R114): one latch pulse; nothing else changes. -/
def Obligations.RefreshLatchesTheStages : Prop :=
  ∀ s : State, s.Ready →
    exec .refresh s = .next { s with
      chain := { stage := s.chain.stage, out := s.chain.stage }
      trace := s.trace ++ [⟨.latch, true⟩, ⟨.latch, false⟩]
      rsp := some .ok }

/-- SETORDER (rule R115): the flag is written, no pin event, nothing else changes. -/
def Obligations.SetorderStoresTheFlag : Prop :=
  ∀ (s : State) (o : BitOrder), exec (.setorder o) s = .next { s with order := o, rsp := some .ok }

/-- SET (rules R130, R178): the buffer is the pattern in both orders; the wire, the data level and the chain depend on the
order; nothing else changes. -/
def Obligations.SetStoresThePattern : Prop :=
  ∀ (s : State) (n : Operand) (pat : Nat), s.WF → s.Ready → n.toNat = s.len →
    exec (.set n pat) s = .next { s with
      buf := bitsOfNat s.len pat
      lvl := { s.lvl with data := match s.order with | .msf => pat.testBit 0 | .lsf => pat.testBit (s.len - 1) }
      chain := { stage := shiftedInBits s.order s.len pat, out := shiftedInBits s.order s.len pat }
      trace := s.trace ++ bitEvents (patternBits s.order s.len pat) ++ Pulse.latch.events
      rsp := some .ok }

/-- SETBIT (rule R131): one bit written, the whole buffer sent highest index first, stages and outputs equal to the buffer;
nothing else changes. -/
def Obligations.SetbitRewritesTheChain : Prop :=
  ∀ (s : State) (idx : Operand) (v : Bool), s.WF → s.Ready → idx.toNat < s.len →
    exec (.setbit idx v) s = .next { s with
      buf := s.buf.set idx.toNat v
      lvl := { s.lvl with data := (s.buf.set idx.toNat v).getD 0 false }
      chain := { stage := s.buf.set idx.toNat v, out := s.buf.set idx.toNat v }
      trace := s.trace ++ bitEvents (s.buf.set idx.toNat v).reverse ++ Pulse.latch.events
      rsp := some .ok }

/-- SETBITS (rule R132): the run `idx .. idx+cnt-1` written, across byte lanes too, an empty run included; the whole buffer
sent; nothing else changes. -/
def Obligations.SetbitsRewritesTheChain : Prop :=
  ∀ (s : State) (idx cnt : Operand) (v : Bool), s.WF → s.Ready → idx.toNat + cnt.toNat ≤ s.len →
    exec (.setbits idx cnt v) s = .next { s with
      buf := runSet idx.toNat cnt.toNat v s.buf
      lvl := { s.lvl with data := (runSet idx.toNat cnt.toNat v s.buf).getD 0 false }
      chain := { stage := runSet idx.toNat cnt.toNat v s.buf, out := runSet idx.toNat cnt.toNat v s.buf }
      trace := s.trace ++ bitEvents (runSet idx.toNat cnt.toNat v s.buf).reverse ++ Pulse.latch.events
      rsp := some .ok }

/-- SHIFT (rules R150, R151): the pattern, reversed under LSF, below the old bits moved up by `n`; the same for the stages;
`n = 0` is a bare latch pulse; nothing else changes (the count of free values drawn is the model's own). -/
def Obligations.ShiftInsertsThePattern : Prop :=
  ∀ (s : State) (n : Operand) (pat : Nat), s.WF → s.Ready → n.toNat ≤ s.len →
    exec (.shift n pat) s = .next { s with
      buf := shiftedInBits s.order n.toNat pat ++ s.buf.take (s.len - n.toNat)
      lvl := { s.lvl with data := lastSent (patternBits s.order n.toNat pat) s.lvl.data }
      chain :=
        { stage := shiftedInBits s.order n.toNat pat ++ s.chain.stage.take (s.len - n.toNat)
          out := shiftedInBits s.order n.toNat pat ++ s.chain.stage.take (s.len - n.toNat) }
      trace := s.trace ++ bitEvents (patternBits s.order n.toNat pat) ++ Pulse.latch.events
      draws := s.draws + n.toNat
      rsp := some .ok }

/-- SHIFTSTATE (rules R152, R181): `cnt` copies of the value below the old bits moved up by `cnt`; the same for the stages;
nothing else changes. -/
def Obligations.ShiftstateInsertsCopies : Prop :=
  ∀ (s : State) (cnt : Operand) (v : Bool), s.WF → s.Ready → cnt.toNat ≤ s.len →
    exec (.shiftstate cnt v) s = .next { s with
      buf := List.replicate cnt.toNat v ++ s.buf.take (s.len - cnt.toNat)
      lvl := { s.lvl with data := if cnt.toNat = 0 then s.lvl.data else v }
      chain :=
        { stage := List.replicate cnt.toNat v ++ s.chain.stage.take (s.len - cnt.toNat)
          out := List.replicate cnt.toNat v ++ s.chain.stage.take (s.len - cnt.toNat) }
      trace := s.trace ++ bitEvents (List.replicate cnt.toNat v) ++ Pulse.latch.events
      draws := s.draws + cnt.toNat
      rsp := some .ok }

/-- SHIFTONEBIT (rule R153): one bit inserted in buffer and stages, three events, no latch pulse: the outputs stay; nothing
else changes. -/
def Obligations.ShiftonebitInsertsWithoutLatch : Prop :=
  ∀ (s : State) (v : Bool), s.WF → s.Ready →
    exec (.shiftonebit v) s = .next { s with
      buf := v :: s.buf.take (s.len - 1)
      lvl := { s.lvl with data := v }
      chain := { stage := v :: s.chain.stage.take (s.len - 1), out := s.chain.out }
      trace := s.trace ++ [⟨.data, v⟩, ⟨.clock, true⟩, ⟨.clock, false⟩]
      draws := s.draws + 1
      rsp := some .ok }

/-- The frame law of SETBIT and SETBITS, bit by bit (rule R180 whole). -/
def Obligations.BitWritesLeaveOtherBits : Prop :=
  (∀ (s : State) (i : Operand) (v : Bool), s.WF → i.toNat < s.len →
    ∃ t, exec (.setbit i v) s = .next t ∧ t.buf[i.toNat]? = some v ∧
      ∀ k, k ≠ i.toNat → t.buf[k]? = s.buf[k]?) ∧
  (∀ (s : State) (idx cnt : Operand) (v : Bool), s.WF → idx.toNat + cnt.toNat ≤ s.len →
    ∃ t, exec (.setbits idx cnt v) s = .next t ∧
      (∀ k, idx.toNat ≤ k → k < idx.toNat + cnt.toNat → t.buf[k]? = some v) ∧
      ∀ k, k < idx.toNat ∨ idx.toNat + cnt.toNat ≤ k → t.buf[k]? = s.buf[k]?)

/-- What BitOrder changes (rule R182 whole): SHIFT stores the pattern under MSF and its reversal under LSF, the rest moves up
alike; the source's instance `1011`; SET stores the same buffer in both orders; no other command but SETORDER, which writes
the flag, has a result that depends on it. -/
def Obligations.BitOrderAffectsShiftAndWireOnly : Prop :=
  (∀ (s : State) (n : Operand) (pat : Nat), s.WF → n.toNat ≤ s.len →
    ∃ t, exec (.shift n pat) s = .next t ∧
      (∀ i < n.toNat, t.buf[i]? =
        some (match s.order with | .msf => pat.testBit i | .lsf => pat.testBit (n.toNat - 1 - i))) ∧
      ∀ i, n.toNat ≤ i → i < s.len → t.buf[i]? = s.buf[i - n.toNat]?) ∧
  (∀ s : State, s.WF → ∃ t, exec (.shift 4 0b1011) s = .next t ∧
    t.buf.take 4 = match s.order with
      | .msf => [true, true, false, true]
      | .lsf => [true, false, true, true]) ∧
  (∀ (s : State) (n : Operand) (pat : Nat) (o : BitOrder), s.WF → n.toNat = s.len →
    ∃ t u, exec (.set n pat) s = .next t ∧ exec (.set n pat) { s with order := o } = .next u ∧ t.buf = u.buf) ∧
  (∀ (i : Instr) (s t : State) (o : BitOrder), s.WF → exec i s = .next t →
    (∀ n p, i ≠ .set n p ∧ i ≠ .shift n p) → (∀ p, i ≠ .setorder p) →
    exec i { s with order := o } = .next { t with order := o })

/-! ### Rejection -/

/-- The operand preconditions decide the status and its code on the response port (rules R204 to R207 whole; the codes are
those of rules R81 and R202): a broken one answers code 1 or 2 and changes nothing else; a command that meets its own answers
code 0, the empty forms included, and so does every command without one. -/
def Obligations.PreconditionsDecideTheStatus : Prop :=
  ∀ s : State, s.WF →
    (∀ (n : Operand) (pat : Nat),
      (n.toNat ≠ s.len → Rejects (exec (.set n pat) s) s .lengthMismatch 1) ∧
      (n.toNat = s.len → Accepts (exec (.set n pat) s))) ∧
    (∀ (n : Operand) (pat : Nat),
      (s.len < n.toNat → Rejects (exec (.shift n pat) s) s .lengthMismatch 1) ∧
      (n.toNat ≤ s.len → Accepts (exec (.shift n pat) s))) ∧
    (∀ (cnt : Operand) (v : Bool),
      (s.len < cnt.toNat → Rejects (exec (.shiftstate cnt v) s) s .lengthMismatch 1) ∧
      (cnt.toNat ≤ s.len → Accepts (exec (.shiftstate cnt v) s))) ∧
    (∀ (idx : Operand) (v : Bool),
      (s.len ≤ idx.toNat → Rejects (exec (.setbit idx v) s) s .indexOutOfRange 2) ∧
      (idx.toNat < s.len → Accepts (exec (.setbit idx v) s))) ∧
    (∀ (idx cnt : Operand) (v : Bool),
      (s.len < idx.toNat + cnt.toNat → Rejects (exec (.setbits idx cnt v) s) s .indexOutOfRange 2) ∧
      (idx.toNat + cnt.toNat ≤ s.len → Accepts (exec (.setbits idx cnt v) s))) ∧
    Accepts (exec .clear s) ∧ Accepts (exec .refresh s) ∧ (∀ o, Accepts (exec (.setorder o) s)) ∧
    ∀ v, Accepts (exec (.shiftonebit v) s)

/-- A rejected command is the identity on everything but the response (rule R177 whole). -/
def Obligations.RejectedCommandIsTheIdentity : Prop :=
  (∀ (i : Instr) (s t : State), exec i s = .next t → t.rsp ≠ some .ok → t = { s with rsp := t.rsp }) ∧
  (∀ (h : Header) (pat : Nat) (s t : State), runCommand h pat s = .next t → t.rsp ≠ some .ok →
    t = { s with rsp := t.rsp })

/-! ### The step -/

/-- A step runs the decoded command: with INIT completed and a command presented, a legal header is executed on the state
with that input taken, an illegal one is rejected (rules R53, R71, R82). -/
def Obligations.StepRunsTheDecodedCommand : Prop :=
  ∀ (s : State) (h : Header) (pat : Nat) (rest : List HostInput),
    s.initDone = true → s.host = .command h pat :: rest →
      (∀ i, decode h (pat % 2 ^ s.len) = .ok i → step s = exec i { s with host := rest }) ∧
      (∀ e, decode h (pat % 2 ^ s.len) = .error e →
        step s = .next { s with host := rest, rsp := some .illegalCommand })

/-- The word the host places is run by the very next step, on the state in which the port is ready (log entries 5 and 6: how a
command is placed is the model's choice). -/
def Obligations.FetchWordIsRunNext : Prop :=
  ∀ (s : State) (w : Nat) (i : Instr), decodeTableWord 40 w = some i →
    step (s.withFetchWord 40 w) = exec i (untilReady s)

/-- INIT runs by itself after hardware reset and leaves the state of rule R231 (rule R231 whole); the command presented is
still presented. -/
def Obligations.InitRunsAfterReset : Prop :=
  ∀ s : State, s.WF → s.AtReset → (∀ x ∈ s.host.head?, ∃ h p, x = .command h p) →
    step s = .next { s with
      oe := true
      initDone := true
      lvl := { data := false, clock := false, latch := false, reset := true }
      chain := { stage := zeros s.len, out := zeros s.len }
      trace := [⟨.reset, true⟩, ⟨.reset, false⟩, ⟨.reset, true⟩, ⟨.latch, true⟩, ⟨.latch, false⟩] }

/-- The values at hardware reset (rule R230 whole), at power on and at any later hardware reset. -/
def Obligations.ResetValuesAreTheSpecs : Prop :=
  (∀ (n : ChipCount) (host : List HostInput) (d : Nat),
    (State.powerOn n host d).AtReset ∧ cmdReady (State.powerOn n host d) = false ∧
      rspValid (State.powerOn n host d) = false ∧ ∀ p, lineLevel (State.powerOn n host d) p = none) ∧
  (∀ s : State, (hardwareReset s).AtReset ∧ cmdReady (hardwareReset s) = false ∧
    rspValid (hardwareReset s) = false ∧ ∀ p, lineLevel (hardwareReset s) p = none) ∧
  State.reset.AtReset

/-- A hardware reset may come at any time, and so may a loss of power (rules R215, R233; the rules do not say what is log
entry 9's choice: where in the queue a reset stands, that the chain has seen exactly the events before it, and that the reset
itself is no event for the chain, which therefore keeps what it holds; that the undriven reset line clears the stages when
INIT drives it is log entry 14's reading; that a loss of power is an input of the step, which draws a new content for the
chain, is log entry 20's). Between steps, and in a step that waits: the reset values, the chain as it was. Inside a command,
after any number of its pin events: the command is abandoned without a response, the chain has seen just those events, and
the outputs are still the last latched ones unless the latch pulse had come. Inside INIT: the stages are clear, the outputs
too once INIT's latch pulse had come. After a loss of power: the state at power on. -/
def Obligations.ResetAbandonsTheStep : Prop :=
  (∀ (s : State) (rest : List HostInput), s.host = .reset :: rest →
    ∃ t, step s = .next t ∧ t.AtReset ∧ t.chips = s.chips ∧ t.chain = s.chain ∧ t.host = rest) ∧
  (∀ (s : State) (k : Nat) (rest : List HostInput), s.Ready → s.host = .resetAfter k :: rest →
    (∀ x ∈ rest.head?, ∀ h p, x ≠ .command h p) →
    ∃ t, step s = .next t ∧ t.AtReset ∧ t.chips = s.chips ∧ t.chain = s.chain ∧ t.host = rest) ∧
  (∀ (s : State) (k : Nat) (h : Header) (pat : Nat) (rest : List HostInput), s.WF → s.Ready →
    s.host = .resetAfter k :: .command h pat :: rest →
    ∃ t u, runCommand h pat { s with host := rest } = .next u ∧ step s = .next t ∧
      t.AtReset ∧ t.WF ∧ t.chips = s.chips ∧ t.host = rest ∧
      t.chain = (replay ((newEvents s u).take k) s).chain ∧
      (⟨.latch, true⟩ ∉ (newEvents s u).take k → t.chain.out = s.chain.out)) ∧
  (∀ (s : State) (k : Nat) (rest : List HostInput), s.WF → s.AtReset → s.host = .resetAfter k :: rest →
    ∃ t, step s = .next t ∧ t.AtReset ∧ t.WF ∧ t.chips = s.chips ∧ t.host = rest ∧
      t.chain = { stage := zeros s.len, out := if k < 4 then s.chain.out else zeros s.len }) ∧
  (∀ (s : State) (rest : List HostInput), s.host = .powerCycle :: rest →
    ∃ t, step s = .next t ∧ t = State.powerOn s.chips rest s.draws ∧ t.AtReset ∧ t.chips = s.chips ∧ t.host = rest)

/-- A disturbance of the chain leaves the block as it was, INIT completed or not; only the chain and the count of draws
change (rules R54, R61, R246; that it is an input of the step is log entry 19's choice). -/
def Obligations.DisturbanceChangesTheChainOnly : Prop :=
  ∀ (s : State) (rest : List HostInput), s.WF → s.host = .disturbance :: rest →
    ∃ t, step s = .next t ∧ t = { s with host := rest, chain := t.chain, draws := t.draws } ∧ t.WF

/-- A command presented before INIT has completed is not accepted: the step is INIT's and the command stays presented
(rules R71, R234). -/
def Obligations.CommandWaitsForInit : Prop :=
  ∀ (s : State) (h : Header) (pat : Nat) (rest : List HostInput),
    s.initDone = false → s.host = .command h pat :: rest →
      ∃ t, step s = .next t ∧ t.host = s.host ∧ t.initDone = true ∧ t.rsp = s.rsp

/-- With nothing presented and INIT completed the block waits, unchanged (log entry 5: a step without input is the model's
own). -/
def Obligations.IdleBlockWaits : Prop :=
  ∀ s : State, s.initDone = true → s.host = [] → step s = .next s

/-! ### Invariants and whole-machine rules -/

/-- The invariant holds when the power comes on, for every chip count and whatever the host will present. -/
def Obligations.InvariantHoldsAtPowerOn : Prop :=
  ∀ (n : ChipCount) (host : List HostInput) (d : Nat), Inv (State.powerOn n host d)

/-- Every step keeps the invariant: `L`-bit vectors, reset values before INIT, idle levels after it, level registers as the
trace left them, a trace of whole pulses (rules R32, R116, R170, R172, R186). -/
def Obligations.StepKeepsTheInvariant : Prop :=
  ∀ s t : State, Inv s → step s = .next t → Inv t

/-- No step stops: no fault and no refusal is reachable from a well-formed state, and every command ends with a response
(rules R71, R99, R248). -/
def Obligations.StepNeverStops : Prop :=
  (∀ s : State, s.WF → ∃ t, step s = .next t) ∧
  (∀ (h : Header) (pat : Nat) (s : State), s.WF → ∃ t, runCommand h pat s = .next t ∧ t.rsp ≠ none)

/-- `L` is constant (rule R170 whole). -/
def Obligations.LengthIsConstant : Prop :=
  ∀ s t : State, s.WF → step s = .next t →
    t.len = s.len ∧ t.len = 8 * t.chips.val ∧ t.buf.length = s.buf.length ∧ t.buf.length % 8 = 0

/-- No undefined bit survives a step (rule R171 whole): whatever free values are drawn, INIT and every command leave the same
state, but for the count of draws. -/
def Obligations.FreeValuesNeverSurvive : Prop :=
  (∀ (i : Instr) (s : State) (d : Nat), s.WF →
    ∃ t, exec i s = .next t ∧ exec i { s with draws := d } = .next { t with draws := d + (t.draws - s.draws) }) ∧
  (∀ (s : State) (d : Nat), initBlock { s with draws := d } = { initBlock s with draws := d })

/-- The block never reads the chain (rule R61: no readback): two machines that differ only in their chains do the same, but
for their chains. -/
def Obligations.ChainIsNeverRead : Prop :=
  ∀ (s t : State) (c : Chain), step s = .next t → ∃ d, step { s with chain := c } = .next { t with chain := d }

/-- No command reads the response port: a host that ignores the status sees the same behaviour (rules R25, R81, R201). -/
def Obligations.ResponseIsNeverRead : Prop :=
  ∀ (i : Instr) (s : State) (r : Option Status), s.WF → exec i { s with rsp := r } = exec i s

/-- The write side of the access table (rule R31): what each command leaves unchanged. -/
def Obligations.CommandsWriteOnlyTheirState : Prop :=
  ∀ (i : Instr) (s t : State), s.WF → s.Ready → exec i s = .next t →
    t.chips = s.chips ∧ t.oe = s.oe ∧ t.initDone = s.initDone ∧ t.host = s.host ∧
    (t.order = s.order ∨ ∃ o, i = .setorder o ∧ t.order = o) ∧
    (i = .refresh ∨ (∃ o, i = .setorder o) → t.buf = s.buf) ∧
    (i = .clear ∨ i = .refresh ∨ (∃ o, i = .setorder o) ∨ (∃ p, i = .shift 0 p) ∨ (∃ v, i = .shiftstate 0 v) →
      t.lvl = s.lvl) ∧
    t.lvl = { s.lvl with data := t.lvl.data } ∧
    ((∃ o, i = .setorder o) → t.chain = s.chain ∧ t.trace = s.trace) ∧
    ((∃ v, i = .shiftonebit v) → t.chain.out = s.chain.out)

/-- Idle levels at the end of INIT and of every command (rule R116 whole). -/
def Obligations.LevelsAreIdleBetweenSteps : Prop :=
  (∀ (i : Instr) (s t : State), s.WF → s.Ready → exec i s = .next t →
    t.lvl.clock = false ∧ t.lvl.latch = false ∧ t.lvl.reset = true) ∧
  (∀ s : State, s.AtReset →
    (initBlock s).lvl.clock = false ∧ (initBlock s).lvl.latch = false ∧ (initBlock s).lvl.reset = true) ∧
  (∀ (s : State) (b : Bool),
    (transmit b s).lvl = { s.lvl with data := b, clock := false } ∧
    (pulseLatch s).lvl = { s.lvl with latch := false } ∧ (pulseReset s).lvl = { s.lvl with reset := true })

/-- The pin events of each step (rule R186 whole): their number, whole pulses that never interleave, and the latch pulse last
(rule R50); none for a rejected command; INIT's five. -/
def Obligations.PinEventsOfEachStep : Prop :=
  (∀ (i : Instr) (s t : State), s.WF → exec i s = .next t →
    ∃ (bits : Bits) (tail : List Pulse), t.trace = s.trace ++ pulseEvents (bits.map .bit ++ tail) ∧
      (tail = [] ∨ tail = [.latch] ∨ tail = [.reset, .latch]) ∧
      (pulseEvents (bits.map .bit ++ tail)).length =
        if t.rsp = some .ok then acceptedEvents s.len i else 0) ∧
  (∀ s : State, (initBlock s).trace = s.trace ++ initEvents) ∧ initEvents.length = 5 ∧
  (∀ s t : State, Inv s → step s = .next t → PulseTrain t.trace)

/-! ### The buffer and the chain -/

/-- Mirror is preserved by every command but an accepted SET under LSF (rule R173). -/
def Obligations.MirrorIsPreserved : Prop :=
  ∀ (i : Instr) (s t : State), s.WF → s.Ready → s.Mirror → exec i s = .next t →
    (t.rsp = some .ok → s.order = .lsf → ∀ n p, i ≠ .set n p) → t.Mirror

/-- Mirror is established, whatever held before, by INIT, CLEAR, SETBIT, SETBITS, SET under MSF, and a SHIFT or SHIFTSTATE of
full length (rule R174 whole). -/
def Obligations.MirrorIsEstablished : Prop :=
  (∀ s : State, s.WF → s.AtReset → (initBlock s).Mirror) ∧
  (∀ (i : Instr) (s t : State), s.WF → s.Ready → exec i s = .next t → t.rsp = some .ok →
    (i = .clear ∨ (∃ idx v, i = .setbit idx v) ∨ (∃ idx cnt v, i = .setbits idx cnt v) ∨
      (s.order = .msf ∧ ∃ n p, i = .set n p) ∨
      (∃ n p, i = .shift n p ∧ n.toNat = s.len) ∨ (∃ cnt v, i = .shiftstate cnt v ∧ cnt.toNat = s.len)) →
    t.Mirror)

/-- SET under LSF reverses the chain (rule R175 whole): Mirror holds afterwards just for a palindrome; REFRESH and SETORDER
leave it broken; a shift command moves buffer and stages alike. -/
def Obligations.SetUnderLsfReversesTheChain : Prop :=
  (∀ (s : State) (n : Operand) (pat : Nat), s.WF → s.Ready → s.order = .lsf → n.toNat = s.len →
    ∃ t, exec (.set n pat) s = .next t ∧ t.buf = bitsOfNat s.len pat ∧
      t.chain.stage = (bitsOfNat s.len pat).reverse ∧
      (t.Mirror ↔ (bitsOfNat s.len pat).reverse = bitsOfNat s.len pat)) ∧
  (∀ (i : Instr) (s t : State), i = .refresh ∨ (∃ o, i = .setorder o) → s.WF → s.Ready → exec i s = .next t →
    ¬ s.Mirror → ¬ t.Mirror) ∧
  (∀ (i : Instr) (m : Nat) (s t : State), s.WF → s.Ready → exec i s = .next t → t.rsp = some .ok →
    ((∃ n p, i = .shift n p ∧ m = n.toNat) ∨ (∃ cnt v, i = .shiftstate cnt v ∧ m = cnt.toNat) ∨
      (∃ v, i = .shiftonebit v ∧ m = 1)) →
    (∀ k < m, t.chain.stage[k]? = t.buf[k]?) ∧
    ∀ k, m ≤ k → k < s.len →
      t.chain.stage[k]? = s.chain.stage[k - m]? ∧ t.buf[k]? = s.buf[k - m]?)

/-- Visible after every latch pulse (rule R176 whole): accepted commands that end with one, and INIT; SETORDER and rejected
commands leave the chain as it was; SHIFTONEBIT leaves the outputs, so Visible holds only by coincidence. -/
def Obligations.OutputsFollowTheLatch : Prop :=
  (∀ s : State, s.WF → s.AtReset → (initBlock s).Visible) ∧
  (∀ (i : Instr) (s t : State), s.WF → s.Ready → exec i s = .next t →
    (t.rsp = some .ok → (∀ o, i ≠ .setorder o) → (∀ v, i ≠ .shiftonebit v) → t.Visible) ∧
    (t.rsp ≠ some .ok ∨ (∃ o, i = .setorder o) → t.chain = s.chain) ∧
    (∀ v, i = .shiftonebit v → (t.Visible ↔ s.chain.out = v :: s.chain.stage.take (s.len - 1))))

/-- The outputs switch in one step (rule R245): after any part of a command's pin events they show what they showed before it
or what they show after it. For a part that ends inside a pulse this rests on the event-level chain of log entry 2 (rule R59,
PRESUMED there: the outputs switch on the rising latch edge and on nothing else). -/
def Obligations.OutputsNeverShowAnIntermediatePattern : Prop :=
  ∀ (i : Instr) (s t : State) (k : Nat), s.WF → s.Ready → exec i s = .next t →
    (replay ((newEvents s t).take k) s).chain.out = s.chain.out ∨
      (replay ((newEvents s t).take k) s).chain.out = t.chain.out

/-! ### Equivalences of command sequences -/

/-- REFRESH twice is REFRESH once, but for the trace: four events against two (rule R183 whole). -/
def Obligations.RefreshIsIdempotent : Prop :=
  ∀ s : State, s.Ready →
    ∃ t u, exec .refresh s = .next t ∧ exec .refresh t = .next u ∧ { u with trace := t.trace } = t ∧
      t.trace.length = s.trace.length + 2 ∧ u.trace.length = s.trace.length + 4

/-- The round trip (rule R184 whole): CLEAR and a full-length SHIFT leave the pattern under MSF and its reversal under LSF; the
CLEAR is not needed. -/
def Obligations.FullShiftRoundTrip : Prop :=
  ∀ (s : State) (n : Operand) (pat : Nat), s.WF → n.toNat = s.len →
    ∃ t u v, exec .clear s = .next t ∧ exec (.shift n pat) t = .next u ∧ exec (.shift n pat) s = .next v ∧
      u.buf = v.buf ∧
      u.buf = match s.order with
        | .msf => bitsOfNat s.len pat
        | .lsf => (bitsOfNat s.len pat).reverse

/-- Single-bit shifts and one REFRESH are one SHIFT (rule R153, corner case): the same state, chain and trace, for any bits up
to `L` of them under MSF. -/
def Obligations.SingleBitShiftsComposeToShift : Prop :=
  ∀ (s : State) (bits : Bits), s.WF → s.order = .msf → bits.length ≤ s.len →
    ∃ t, execAll (bits.map .shiftonebit ++ [.refresh]) s = .next t ∧
      exec (.shift (BitVec.ofNat 16 bits.length) (natOfBits bits.reverse)) s = .next t

/-- SHIFTSTATE is SHIFT of a pattern of equal bits, in either order (rules R150, R152). -/
def Obligations.ShiftstateIsShiftOfEqualBits : Prop :=
  ∀ (s : State) (cnt : Operand) (v : Bool),
    exec (.shiftstate cnt v) s = exec (.shift cnt (if v then 2 ^ cnt.toNat - 1 else 0)) s

/-- SETBITS of one bit is SETBIT (rule R132, corner case), out of range included. -/
def Obligations.SetbitsOfOneIsSetbit : Prop :=
  ∀ (s : State) (idx : Operand) (v : Bool), exec (.setbits idx 1 v) s = exec (.setbit idx v) s

/-! ### Ports -/

/-- The output ports and the observation port (rules R24, R33, R70, R72, R73): a pin event sets its own line, while the lines
are driven, and no other; in a ready block the four lines stand at their registers, clock and latch low and reset high;
`obs_buf` shows the buffer bit for bit; `obs_order` shows the flag of the last SETORDER, 0 for MSF and 1 for LSF; `cmd_ready`
is 1 once INIT has completed. -/
def Obligations.PortsShowTheState : Prop :=
  (∀ (s : State) (p q : Pin) (v : Bool),
    lineLevel (emit p v s) q = if q = p then (if s.oe then some v else none) else lineLevel s q) ∧
  (∀ s : State, s.Ready →
    cmdReady s = true ∧ (∀ p, lineLevel s p = some (s.lvl.get p)) ∧
    lineLevel s .data = some s.lvl.data ∧ lineLevel s .clock = some false ∧ lineLevel s .latch = some false ∧
    lineLevel s .reset = some true) ∧
  (∀ s : State, s.WF → obsBuf s < 2 ^ s.len ∧ ∀ i < s.len, s.buf[i]? = some ((obsBuf s).testBit i)) ∧
  (∀ s : State, obsOrder s = match s.order with | .msf => false | .lsf => true) ∧
  (∀ (s : State) (pat : Nat) (f : Bool), ∃ t,
    runCommand (packHeader 3#4 f 0#16 0#16) pat s = .next t ∧ obsOrder t = f)
end

