-- ==== Sys2Proof/Laws/State.lean ====
section
/-! SUPPORT. One lemma per field per update of the state, true by rfl, so that no later proof unfolds a record update. -/

namespace Sys2Proof.Machine

/-! ### emit -/

@[simp] theorem emit_chips (p : Pin) (v : Bool) (s : State) : (emit p v s).chips = s.chips := rfl
@[simp] theorem emit_buf (p : Pin) (v : Bool) (s : State) : (emit p v s).buf = s.buf := rfl
@[simp] theorem emit_order (p : Pin) (v : Bool) (s : State) : (emit p v s).order = s.order := rfl
@[simp] theorem emit_lvl (p : Pin) (v : Bool) (s : State) : (emit p v s).lvl = s.lvl.put p v := rfl
@[simp] theorem emit_oe (p : Pin) (v : Bool) (s : State) : (emit p v s).oe = s.oe := rfl
@[simp] theorem emit_initDone (p : Pin) (v : Bool) (s : State) : (emit p v s).initDone = s.initDone := rfl
@[simp] theorem emit_chain (p : Pin) (v : Bool) (s : State) : (emit p v s).chain = if s.oe then s.chain.react s.lvl p v else s.chain := rfl
@[simp] theorem emit_rsp (p : Pin) (v : Bool) (s : State) : (emit p v s).rsp = s.rsp := rfl
@[simp] theorem emit_trace (p : Pin) (v : Bool) (s : State) : (emit p v s).trace = s.trace ++ [⟨p, v⟩] := rfl
@[simp] theorem emit_host (p : Pin) (v : Bool) (s : State) : (emit p v s).host = s.host := rfl
@[simp] theorem emit_draws (p : Pin) (v : Bool) (s : State) : (emit p v s).draws = s.draws := rfl
@[simp] theorem emit_len (p : Pin) (v : Bool) (s : State) : (emit p v s).len = s.len := rfl

/-! ### setBuf -/

@[simp] theorem setBuf_chips (b : Bits) (s : State) : (setBuf b s).chips = s.chips := rfl
@[simp] theorem setBuf_buf (b : Bits) (s : State) : (setBuf b s).buf = b := rfl
@[simp] theorem setBuf_order (b : Bits) (s : State) : (setBuf b s).order = s.order := rfl
@[simp] theorem setBuf_lvl (b : Bits) (s : State) : (setBuf b s).lvl = s.lvl := rfl
@[simp] theorem setBuf_oe (b : Bits) (s : State) : (setBuf b s).oe = s.oe := rfl
@[simp] theorem setBuf_initDone (b : Bits) (s : State) : (setBuf b s).initDone = s.initDone := rfl
@[simp] theorem setBuf_chain (b : Bits) (s : State) : (setBuf b s).chain = s.chain := rfl
@[simp] theorem setBuf_rsp (b : Bits) (s : State) : (setBuf b s).rsp = s.rsp := rfl
@[simp] theorem setBuf_trace (b : Bits) (s : State) : (setBuf b s).trace = s.trace := rfl
@[simp] theorem setBuf_host (b : Bits) (s : State) : (setBuf b s).host = s.host := rfl
@[simp] theorem setBuf_draws (b : Bits) (s : State) : (setBuf b s).draws = s.draws := rfl
@[simp] theorem setBuf_len (b : Bits) (s : State) : (setBuf b s).len = s.len := rfl

/-! ### respond -/

@[simp] theorem respond_chips (st : Status) (s : State) : (respond st s).chips = s.chips := rfl
@[simp] theorem respond_buf (st : Status) (s : State) : (respond st s).buf = s.buf := rfl
@[simp] theorem respond_order (st : Status) (s : State) : (respond st s).order = s.order := rfl
@[simp] theorem respond_lvl (st : Status) (s : State) : (respond st s).lvl = s.lvl := rfl
@[simp] theorem respond_oe (st : Status) (s : State) : (respond st s).oe = s.oe := rfl
@[simp] theorem respond_initDone (st : Status) (s : State) : (respond st s).initDone = s.initDone := rfl
@[simp] theorem respond_chain (st : Status) (s : State) : (respond st s).chain = s.chain := rfl
@[simp] theorem respond_rsp (st : Status) (s : State) : (respond st s).rsp = some st := rfl
@[simp] theorem respond_trace (st : Status) (s : State) : (respond st s).trace = s.trace := rfl
@[simp] theorem respond_host (st : Status) (s : State) : (respond st s).host = s.host := rfl
@[simp] theorem respond_draws (st : Status) (s : State) : (respond st s).draws = s.draws := rfl
@[simp] theorem respond_len (st : Status) (s : State) : (respond st s).len = s.len := rfl

/-! ### setOrder -/

@[simp] theorem setOrder_chips (o : BitOrder) (s : State) : (setOrder o s).chips = s.chips := rfl
@[simp] theorem setOrder_buf (o : BitOrder) (s : State) : (setOrder o s).buf = s.buf := rfl
@[simp] theorem setOrder_order (o : BitOrder) (s : State) : (setOrder o s).order = o := rfl
@[simp] theorem setOrder_lvl (o : BitOrder) (s : State) : (setOrder o s).lvl = s.lvl := rfl
@[simp] theorem setOrder_oe (o : BitOrder) (s : State) : (setOrder o s).oe = s.oe := rfl
@[simp] theorem setOrder_initDone (o : BitOrder) (s : State) : (setOrder o s).initDone = s.initDone := rfl
@[simp] theorem setOrder_chain (o : BitOrder) (s : State) : (setOrder o s).chain = s.chain := rfl
@[simp] theorem setOrder_rsp (o : BitOrder) (s : State) : (setOrder o s).rsp = s.rsp := rfl
@[simp] theorem setOrder_trace (o : BitOrder) (s : State) : (setOrder o s).trace = s.trace := rfl
@[simp] theorem setOrder_host (o : BitOrder) (s : State) : (setOrder o s).host = s.host := rfl
@[simp] theorem setOrder_draws (o : BitOrder) (s : State) : (setOrder o s).draws = s.draws := rfl
@[simp] theorem setOrder_len (o : BitOrder) (s : State) : (setOrder o s).len = s.len := rfl

/-! ### setInitDone -/

@[simp] theorem setInitDone_chips  (s : State) : (setInitDone s).chips = s.chips := rfl
@[simp] theorem setInitDone_buf  (s : State) : (setInitDone s).buf = s.buf := rfl
@[simp] theorem setInitDone_order  (s : State) : (setInitDone s).order = s.order := rfl
@[simp] theorem setInitDone_lvl  (s : State) : (setInitDone s).lvl = s.lvl := rfl
@[simp] theorem setInitDone_oe  (s : State) : (setInitDone s).oe = s.oe := rfl
@[simp] theorem setInitDone_initDone  (s : State) : (setInitDone s).initDone = true := rfl
@[simp] theorem setInitDone_chain  (s : State) : (setInitDone s).chain = s.chain := rfl
@[simp] theorem setInitDone_rsp  (s : State) : (setInitDone s).rsp = s.rsp := rfl
@[simp] theorem setInitDone_trace  (s : State) : (setInitDone s).trace = s.trace := rfl
@[simp] theorem setInitDone_host  (s : State) : (setInitDone s).host = s.host := rfl
@[simp] theorem setInitDone_draws  (s : State) : (setInitDone s).draws = s.draws := rfl
@[simp] theorem setInitDone_len  (s : State) : (setInitDone s).len = s.len := rfl

/-! ### driveLines -/

@[simp] theorem driveLines_chips  (s : State) : (driveLines s).chips = s.chips := rfl
@[simp] theorem driveLines_buf  (s : State) : (driveLines s).buf = s.buf := rfl
@[simp] theorem driveLines_order  (s : State) : (driveLines s).order = s.order := rfl
@[simp] theorem driveLines_lvl  (s : State) : (driveLines s).lvl = s.lvl := rfl
@[simp] theorem driveLines_oe  (s : State) : (driveLines s).oe = true := rfl
@[simp] theorem driveLines_initDone  (s : State) : (driveLines s).initDone = s.initDone := rfl
@[simp] theorem driveLines_chain  (s : State) : (driveLines s).chain = if s.lvl.reset then s.chain else s.chain.cleared := rfl
@[simp] theorem driveLines_rsp  (s : State) : (driveLines s).rsp = s.rsp := rfl
@[simp] theorem driveLines_trace  (s : State) : (driveLines s).trace = s.trace := rfl
@[simp] theorem driveLines_host  (s : State) : (driveLines s).host = s.host := rfl
@[simp] theorem driveLines_draws  (s : State) : (driveLines s).draws = s.draws := rfl
@[simp] theorem driveLines_len  (s : State) : (driveLines s).len = s.len := rfl

/-! ### hardwareReset -/

@[simp] theorem hardwareReset_chips  (s : State) : (hardwareReset s).chips = s.chips := rfl
@[simp] theorem hardwareReset_buf  (s : State) : (hardwareReset s).buf = zeros s.len := rfl
@[simp] theorem hardwareReset_order  (s : State) : (hardwareReset s).order = .msf := rfl
@[simp] theorem hardwareReset_lvl  (s : State) : (hardwareReset s).lvl = Levels.allLow := rfl
@[simp] theorem hardwareReset_oe  (s : State) : (hardwareReset s).oe = false := rfl
@[simp] theorem hardwareReset_initDone  (s : State) : (hardwareReset s).initDone = false := rfl
@[simp] theorem hardwareReset_chain  (s : State) : (hardwareReset s).chain = s.chain := rfl
@[simp] theorem hardwareReset_rsp  (s : State) : (hardwareReset s).rsp = none := rfl
@[simp] theorem hardwareReset_trace  (s : State) : (hardwareReset s).trace = [] := rfl
@[simp] theorem hardwareReset_host  (s : State) : (hardwareReset s).host = s.host := rfl
@[simp] theorem hardwareReset_draws  (s : State) : (hardwareReset s).draws = s.draws := rfl
@[simp] theorem hardwareReset_len  (s : State) : (hardwareReset s).len = s.len := rfl

/-! ### present -/

@[simp] theorem present_chips (h : Header) (p : Nat) (s : State) : (present h p s).chips = s.chips := rfl
@[simp] theorem present_buf (h : Header) (p : Nat) (s : State) : (present h p s).buf = s.buf := rfl
@[simp] theorem present_order (h : Header) (p : Nat) (s : State) : (present h p s).order = s.order := rfl
@[simp] theorem present_lvl (h : Header) (p : Nat) (s : State) : (present h p s).lvl = s.lvl := rfl
@[simp] theorem present_oe (h : Header) (p : Nat) (s : State) : (present h p s).oe = s.oe := rfl
@[simp] theorem present_initDone (h : Header) (p : Nat) (s : State) : (present h p s).initDone = s.initDone := rfl
@[simp] theorem present_chain (h : Header) (p : Nat) (s : State) : (present h p s).chain = s.chain := rfl
@[simp] theorem present_rsp (h : Header) (p : Nat) (s : State) : (present h p s).rsp = s.rsp := rfl
@[simp] theorem present_trace (h : Header) (p : Nat) (s : State) : (present h p s).trace = s.trace := rfl
@[simp] theorem present_host (h : Header) (p : Nat) (s : State) : (present h p s).host = .command h p :: s.host := rfl
@[simp] theorem present_draws (h : Header) (p : Nat) (s : State) : (present h p s).draws = s.draws := rfl
@[simp] theorem present_len (h : Header) (p : Nat) (s : State) : (present h p s).len = s.len := rfl

/-! ### disturbChain -/

@[simp] theorem disturbChain_chips (s : State) : (disturbChain s).chips = s.chips := rfl
@[simp] theorem disturbChain_buf (s : State) : (disturbChain s).buf = s.buf := rfl
@[simp] theorem disturbChain_order (s : State) : (disturbChain s).order = s.order := rfl
@[simp] theorem disturbChain_lvl (s : State) : (disturbChain s).lvl = s.lvl := rfl
@[simp] theorem disturbChain_oe (s : State) : (disturbChain s).oe = s.oe := rfl
@[simp] theorem disturbChain_initDone (s : State) : (disturbChain s).initDone = s.initDone := rfl
@[simp] theorem disturbChain_rsp (s : State) : (disturbChain s).rsp = s.rsp := rfl
@[simp] theorem disturbChain_trace (s : State) : (disturbChain s).trace = s.trace := rfl
@[simp] theorem disturbChain_host (s : State) : (disturbChain s).host = s.host := rfl
@[simp] theorem disturbChain_len (s : State) : (disturbChain s).len = s.len := rfl

/-! ### Power on -/

@[simp] theorem powerOn_chips (n : ChipCount) (h : List HostInput) (d : Nat) : (State.powerOn n h d).chips = n := rfl
@[simp] theorem powerOn_len (n : ChipCount) (h : List HostInput) (d : Nat) : (State.powerOn n h d).len = 8 * n.val := rfl
@[simp] theorem powerOn_host (n : ChipCount) (h : List HostInput) (d : Nat) : (State.powerOn n h d).host = h := rfl
@[simp] theorem powerOn_initDone (n : ChipCount) (h : List HostInput) (d : Nat) :
    (State.powerOn n h d).initDone = false := rfl

/-! ### Level registers (rule R26) -/

theorem levels_put_get (l : Levels) (p q : Pin) (v : Bool) : (l.put p v).get q = if q = p then v else l.get q := by
  cases p <;> cases q <;> rfl

/-! ### The chain's length is fixed (rule R55) -/

@[simp] theorem zeros_length (n : Nat) : (zeros n).length = n := by simp [zeros]

@[simp] theorem undefBits_length (d n : Nat) : (Config.undefBits d n).length = n := by simp [Config.undefBits]

@[simp] theorem shiftIn_length (b : Bool) (st : Bits) : (shiftIn b st).length = st.length := by simp [shiftIn]

@[simp] theorem cleared_stage (c : Chain) : c.cleared.stage = zeros c.stage.length := rfl
@[simp] theorem cleared_out (c : Chain) : c.cleared.out = c.out := rfl

theorem react_stage_length (l : Levels) (p : Pin) (v : Bool) (c : Chain) :
    (c.react l p v).stage.length = c.stage.length := by
  unfold Chain.react; split <;> (try split) <;> (try split) <;> simp

theorem react_out_length (l : Levels) (p : Pin) (v : Bool) (c : Chain) (h : c.out.length = c.stage.length) :
    (c.react l p v).out.length = c.stage.length := by
  unfold Chain.react; split <;> (try split) <;> (try split) <;> simp [h]

/-! ### The number of bits -/

/-- `8 <= L <= 65528` (rule R7). -/
theorem len_bounds (s : State) : 8 ≤ s.len ∧ s.len ≤ 65528 := by
  have := s.chips.property; unfold State.len; omega

end Sys2Proof.Machine
end

