-- ==== Sys2Proof/Laws/Ops.lean ====
section
/-! SUPPORT. One law per shared operation: what it does, said once, so that no proof about an instruction unfolds it. -/

namespace Sys2Proof.Machine

/-! ### Chaining -/

@[simp] theorem andThen_next (s : State) (f : State → Result) : andThen (.next s) f = f s := rfl
@[simp] theorem andThen_fault (e : Fault) (f : State → Result) : andThen (.fault e) f = .fault e := rfl
@[simp] theorem andThen_refused (e : Refusal) (f : State → Result) : andThen (.refused e) f = .refused e := rfl

/-- A chain gives a next state exactly when both parts do. -/
theorem andThen_eq_next {r : Result} {f : State → Result} {t : State} :
    andThen r f = .next t ↔ ∃ u, r = .next u ∧ f u = .next t := by
  cases r <;> simp [andThen]

/-! ### Events one after another -/

@[simp] theorem replay_nil (s : State) : replay [] s = s := rfl
@[simp] theorem replay_cons (e : PinEvent) (es : List PinEvent) (s : State) :
    replay (e :: es) s = replay es (emit e.pin e.level s) := rfl

theorem replay_append (as bs : List PinEvent) (s : State) : replay (as ++ bs) s = replay bs (replay as s) := by
  simp [replay]

/-- The chain after these events, on lines at these levels, driven or not. -/
def chainAfter (oe : Bool) : List PinEvent → Levels → Chain → Chain
  | [], _, c => c
  | e :: es, l, c => chainAfter oe es (l.put e.pin e.level) (if oe then c.react l e.pin e.level else c)

/-- Everything a run of events does: it moves the chain, sets the level registers and appends itself to the trace; nothing
else. -/
theorem replay_eq (evs : List PinEvent) (s : State) :
    replay evs s =
      { s with
        chain := chainAfter s.oe evs s.lvl s.chain
        lvl := evs.foldl (fun l e => l.put e.pin e.level) s.lvl
        trace := s.trace ++ evs } := by
  induction evs generalizing s with
  | nil => simp [chainAfter]
  | cons e es ih => rw [replay_cons, ih]; simp [emit, chainAfter]

theorem transmit_eq_replay (b : Bool) (s : State) : transmit b s = replay (Pulse.bit b).events s := rfl
theorem pulseLatch_eq_replay (s : State) : pulseLatch s = replay Pulse.latch.events s := rfl
theorem pulseReset_eq_replay (s : State) : pulseReset s = replay Pulse.reset.events s := rfl

/-! ### Pulses on driven, idle lines (rules R56 to R58) -/

/-- Transmit on driven, idle lines: the chain shifts by one stage (rules R56, R95). -/
theorem transmit_idle (b : Bool) (s : State) (ho : s.oe = true) (hc : s.lvl.clock = false) (hr : s.lvl.reset = true) :
    transmit b s =
      { s with
        lvl := { s.lvl with data := b, clock := false }
        chain := { stage := shiftIn b s.chain.stage, out := s.chain.out }
        trace := s.trace ++ (Pulse.bit b).events } := by
  simp [transmit, emit, ho, hc, hr, Levels.put, Chain.react, Pulse.events]

/-- PulseLatch on driven, idle lines: the stages are copied to the outputs (rules R57, R110). -/
theorem pulseLatch_idle (s : State) (ho : s.oe = true) (hl : s.lvl.latch = false) :
    pulseLatch s =
      { s with
        lvl := { s.lvl with latch := false }
        chain := { stage := s.chain.stage, out := s.chain.stage }
        trace := s.trace ++ Pulse.latch.events } := by
  simp [pulseLatch, emit, ho, hl, Levels.put, Chain.react, Pulse.events]

/-- PulseReset on driven lines: the stages are cleared, the outputs stay (rules R58, R111). -/
theorem pulseReset_driven (s : State) (ho : s.oe = true) :
    pulseReset s =
      { s with
        lvl := { s.lvl with reset := true }
        chain := { stage := zeros s.chain.stage.length, out := s.chain.out }
        trace := s.trace ++ Pulse.reset.events } := by
  simp [pulseReset, emit, ho, Levels.put, Chain.react, Chain.cleared, Pulse.events]

/-! ### Runs of Transmits -/

/-- Transmit these bits in this order. -/
def sendBits (bits : Bits) (s : State) : State := bits.foldl (fun t b => transmit b t) s

@[simp] theorem sendBits_nil (s : State) : sendBits [] s = s := rfl
@[simp] theorem sendBits_cons (b : Bool) (bs : Bits) (s : State) :
    sendBits (b :: bs) s = sendBits bs (transmit b s) := rfl

theorem pulseEvents_append (as bs : List Pulse) : pulseEvents (as ++ bs) = pulseEvents as ++ pulseEvents bs := by
  simp [pulseEvents]

@[simp] theorem bitEvents_nil : bitEvents [] = [] := rfl
theorem bitEvents_cons (b : Bool) (bs : Bits) : bitEvents (b :: bs) = (Pulse.bit b).events ++ bitEvents bs := rfl

/-- Three events per bit (rule R95). -/
theorem bitEvents_length (bits : Bits) : (bitEvents bits).length = 3 * bits.length := by
  induction bits with
  | nil => rfl
  | cons b bs ih => rw [bitEvents_cons, List.length_append, ih]; simp [Pulse.events]; omega

/-- Sending bits is replaying their events. -/
theorem sendBits_eq_replay (bits : Bits) (s : State) : sendBits bits s = replay (bitEvents bits) s := by
  induction bits generalizing s with
  | nil => rfl
  | cons b bs ih => rw [sendBits_cons, ih, bitEvents_cons, replay_append, transmit_eq_replay]

theorem sentStages_cons (b : Bool) (bs st : Bits) : sentStages (b :: bs) st = sentStages bs (shiftIn b st) := by
  simp only [sentStages, shiftIn, List.reverse_cons, List.append_assoc, List.singleton_append]
  rw [List.take_append, List.take_append]
  simp [List.take_take]

theorem lastSent_cons (b : Bool) (bs : Bits) (l : Bool) : lastSent (b :: bs) l = lastSent bs b := by
  rw [lastSent, List.getLastD_cons]; rfl

@[simp] theorem sentStages_length (bs st : Bits) : (sentStages bs st).length = st.length := by simp [sentStages]

/-- Sending bits on driven, idle lines: what it does to the whole state (rules R56, R95, R98). -/
theorem sendBits_idle (bits : Bits) (s : State) (ho : s.oe = true) (hc : s.lvl.clock = false)
    (hr : s.lvl.reset = true) :
    sendBits bits s =
      { s with
        lvl := { s.lvl with data := lastSent bits s.lvl.data, clock := false }
        chain := { stage := sentStages bits s.chain.stage, out := s.chain.out }
        trace := s.trace ++ bitEvents bits } := by
  induction bits generalizing s with
  | nil =>
    obtain ⟨_, _, _, ⟨_, _, _, _⟩, _, _, ⟨_, _⟩, _, _, _, _⟩ := s
    simp_all [sentStages, lastSent]
  | cons b bs ih =>
    rw [sendBits_cons, transmit_idle b s ho hc hr]
    refine Eq.trans (ih _ (by exact ho) (by rfl) (by exact hr)) ?_
    simp [sentStages_cons, bitEvents_cons, lastSent_cons]

/-! ### BitBuffer primitives inside their preconditions -/

theorem bbRead_ok {i : Nat} {s : State} (h : i < s.len) : bbRead i s = .ok (s.buf.getD i false) := by
  simp [bbRead, h]

theorem bbWrite_next {i : Nat} {s : State} (v : Bool) (h : i < s.len) :
    bbWrite i v s = .next (setBuf (s.buf.set i v) s) := by simp [bbWrite, h]

theorem shiftForward_next {c : Nat} {s : State} (h : c ≤ s.len) :
    shiftForward c s = .next { s with
      buf := shiftedBuf (Config.undefBits s.draws c) c s.len s.buf
      draws := s.draws + c } := by simp [shiftForward, h]

/-- A pin event and a new buffer do not touch each other. -/
theorem transmit_setBuf (b : Bool) (buf : Bits) (s : State) : transmit b (setBuf buf s) = setBuf buf (transmit b s) := rfl

theorem sendBits_setBuf (bits buf : Bits) (s : State) :
    sendBits bits (setBuf buf s) = setBuf buf (sendBits bits s) := by
  induction bits generalizing s with
  | nil => rfl
  | cons b bs ih => rw [sendBits_cons, sendBits_cons, transmit_setBuf, ih]

@[simp] theorem transmit_len (b : Bool) (s : State) : (transmit b s).len = s.len := rfl
@[simp] theorem transmit_buf (b : Bool) (s : State) : (transmit b s).buf = s.buf := rfl

@[simp] theorem sendBits_len (bits : Bits) (s : State) : (sendBits bits s).len = s.len := by
  induction bits generalizing s with
  | nil => rfl
  | cons b bs ih => rw [sendBits_cons, ih, transmit_len]

@[simp] theorem sendBits_buf (bits : Bits) (s : State) : (sendBits bits s).buf = s.buf := by
  induction bits generalizing s with
  | nil => rfl
  | cons b bs ih => rw [sendBits_cons, ih, transmit_buf]

/-! ### Loops inside their preconditions -/

/-- Store each bit at its index, in turn. -/
def storeAll (l : List (Bool × Nat)) (buf : Bits) : Bits := l.foldl (fun b p => b.set p.2 p.1) buf

@[simp] theorem storeAll_nil (buf : Bits) : storeAll [] buf = buf := rfl
@[simp] theorem storeAll_cons (p : Bool × Nat) (l : List (Bool × Nat)) (buf : Bits) :
    storeAll (p :: l) buf = storeAll l (buf.set p.2 p.1) := rfl

@[simp] theorem storeAll_length (l : List (Bool × Nat)) (buf : Bits) : (storeAll l buf).length = buf.length := by
  induction l generalizing buf with
  | nil => rfl
  | cons p l ih => rw [storeAll_cons, ih, List.length_set]

/-- An index that no pair names keeps its bit. -/
theorem storeAll_getElem?_of_not_mem {l : List (Bool × Nat)} {buf : Bits} {k : Nat} (h : ∀ p ∈ l, p.2 ≠ k) :
    (storeAll l buf)[k]? = buf[k]? := by
  induction l generalizing buf with
  | nil => rfl
  | cons p l ih =>
    rw [storeAll_cons, ih fun q hq => h q (List.mem_cons_of_mem _ hq)]
    exact List.getElem?_set_ne (h p List.mem_cons_self)

/-- An index to which every pair that names it gives the same bit holds that bit. -/
theorem storeAll_getElem?_of_mem {l : List (Bool × Nat)} {buf : Bits} {k : Nat} {c : Bool}
    (h : ∀ p ∈ l, p.2 = k → p.1 = c) (hk : ∃ p ∈ l, p.2 = k) (hb : k < buf.length) :
    (storeAll l buf)[k]? = some c := by
  induction l generalizing buf with
  | nil => simp at hk
  | cons p l ih =>
    rw [storeAll_cons]
    by_cases hl : ∃ q ∈ l, q.2 = k
    · exact ih (fun q hq => h q (List.mem_cons_of_mem _ hq)) hl (by simpa using hb)
    · push Not at hl
      obtain ⟨q, hq, rfl⟩ := hk
      obtain rfl | hq := List.mem_cons.mp hq
      · rw [storeAll_getElem?_of_not_mem hl, ← h q List.mem_cons_self rfl]
        simp [hb]
      · exact absurd rfl (hl q hq)

/-- The loop of SET and the shift commands, all indices inside the buffer: the bits are sent in order, each is stored. -/
theorem sendStore_next {l : List (Bool × Nat)} {s : State} (h : ∀ p ∈ l, p.2 < s.len) :
    sendStore l s = .next (setBuf (storeAll l s.buf) (sendBits (l.map Prod.fst) s)) := by
  induction l generalizing s with
  | nil => rfl
  | cons p l ih =>
    obtain ⟨b, i⟩ := p
    have hi : i < (transmit b s).len := h (b, i) List.mem_cons_self
    have hl : ∀ p ∈ l, p.2 < (setBuf ((transmit b s).buf.set i b) (transmit b s)).len :=
      fun p hp => h p (List.mem_cons_of_mem _ hp)
    rw [sendStore, bbWrite_next b hi, andThen_next, ih hl, sendBits_setBuf]
    rfl

/-- The loop of RetransmitAll, all indices inside the buffer. -/
theorem transmitBits_next {is : List Nat} {s : State} (h : ∀ i ∈ is, i < s.len) :
    transmitBits is s = .next (sendBits (is.map fun i => s.buf.getD i false) s) := by
  induction is generalizing s with
  | nil => rfl
  | cons i is ih =>
    have hl : ∀ j ∈ is, j < (transmit (s.buf.getD i false) s).len := fun j hj => h j (List.mem_cons_of_mem _ hj)
    simp only [transmitBits, bbRead_ok (h i List.mem_cons_self), ih hl]
    rfl

/-- The loop of SETBITS, all indices inside the buffer. -/
theorem writeBits_next {is : List Nat} {s : State} (v : Bool) (h : ∀ i ∈ is, i < s.len) :
    writeBits v is s = .next (setBuf (storeAll (is.map fun i => (v, i)) s.buf) s) := by
  induction is generalizing s with
  | nil => rfl
  | cons i is ih =>
    have hl : ∀ j ∈ is, j < (setBuf (s.buf.set i v) s).len := fun j hj => h j (List.mem_cons_of_mem _ hj)
    simp only [writeBits, bbWrite_next v (h i List.mem_cons_self), andThen_next, ih hl]
    rfl

/-! ### seq (rule R96) -/

theorem mem_seq {o : BitOrder} {n i : Nat} : i ∈ seq o n ↔ i < n := by cases o <;> simp [seq]

@[simp] theorem seq_length (o : BitOrder) (n : Nat) : (seq o n).length = n := by cases o <;> simp [seq]

theorem seq_getElem? {o : BitOrder} {n j : Nat} (h : j < n) :
    (seq o n)[j]? = some (match o with | .msf => n - 1 - j | .lsf => j) := by
  cases o
  · rw [seq, List.getElem?_reverse (by simpa using h), List.length_range, List.getElem?_range (by omega)]
  · simp [seq, h]

/-- The whole buffer read from the highest index down is its reversal (rule R97). -/
theorem map_seq_msf_getD (buf : Bits) : (seq .msf buf.length).map (fun i => buf.getD i false) = buf.reverse := by
  have : (List.range buf.length).map (fun i => buf.getD i false) = buf := by
    apply List.ext_getElem <;> simp +contextual
  rw [seq, List.map_reverse, this]

/-- RetransmitAll sends the buffer, highest index first, and changes nothing else (rule R97). -/
theorem retransmitAll_next {s : State} (h : s.buf.length = s.len) :
    retransmitAll s = .next (sendBits s.buf.reverse s) := by
  rw [retransmitAll, transmitBits_next fun i hi => mem_seq.mp hi, ← h, map_seq_msf_getD]

end Sys2Proof.Machine
end

