-- ==== Sys2Proof/Laws/Sends.lean ====
section
/-! SUPPORT. What the send lists of the data-moving commands come to: the bits on the wire, and the buffer they leave
(rules R130, R132, R150 to R153). -/

namespace Sys2Proof.Machine

@[simp] theorem bitsOfNat_length (n v : Nat) : (bitsOfNat n v).length = n := by simp [bitsOfNat]

theorem bitsOfNat_getElem? (n v k : Nat) : (bitsOfNat n v)[k]? = if k < n then some (v.testBit k) else none := by
  by_cases h : k < n <;> simp [bitsOfNat, h]

/-- The number a bit vector is written as has the vector's bits (rule R8). -/
theorem natOfBits_testBit (bits : Bits) (k : Nat) : (natOfBits bits).testBit k = bits.getD k false := by
  induction bits generalizing k with
  | nil => simp [natOfBits]
  | cons b bs ih =>
    cases k with
    | zero => cases b <;> simp [natOfBits, Nat.testBit_zero, Nat.add_mod]
    | succ k =>
      have h : (b.toNat + 2 * natOfBits bs) / 2 = natOfBits bs := by cases b <;> simp; omega
      rw [natOfBits, Nat.testBit_succ, h, ih]; simp

theorem natOfBits_lt (bits : Bits) : natOfBits bits < 2 ^ bits.length := by
  induction bits with
  | nil => simp [natOfBits]
  | cons b bs ih =>
    have hb : b.toNat ≤ 1 := by cases b <;> simp
    rw [natOfBits, List.length_cons, Nat.pow_succ]; omega

@[simp] theorem patternBits_length (o : BitOrder) (n pat : Nat) : (patternBits o n pat).length = n := by
  simp [patternBits]

/-- The pattern on the wire: highest index first under MSF, lowest first under LSF (rules R44, R96). -/
theorem patternBits_eq (o : BitOrder) (n pat : Nat) :
    patternBits o n pat = match o with | .msf => (bitsOfNat n pat).reverse | .lsf => bitsOfNat n pat := by
  cases o <;> simp [patternBits, seq, bitsOfNat]

/-- The first bit sent lands at the highest vacated index (rules R150, R154). -/
theorem reverse_patternBits (o : BitOrder) (n pat : Nat) : (patternBits o n pat).reverse = shiftedInBits o n pat := by
  cases o <;> simp [patternBits_eq, shiftedInBits]

@[simp] theorem shiftedInBits_length (o : BitOrder) (n pat : Nat) : (shiftedInBits o n pat).length = n := by
  rw [← reverse_patternBits]; simp

/-! ### The bits on the wire -/

@[simp] theorem setSends_bits (o : BitOrder) (len pat : Nat) :
    (setSends o len pat).map Prod.fst = patternBits o len pat := by
  simp [setSends, patternBits, patBit, Function.comp_def]

@[simp] theorem shiftSends_bits (o : BitOrder) (n pat : Nat) :
    (shiftSends o n pat).map Prod.fst = patternBits o n pat := by
  have h : (shiftSends o n pat).map Prod.fst = ((seq o n).zipIdx.map Prod.fst).map pat.testBit := by
    rw [shiftSends, List.map_map, List.map_map]; rfl
  rw [h, List.zipIdx_map_fst, patternBits]

@[simp] theorem stateSends_bits (cnt : Nat) (v : Bool) : (stateSends cnt v).map Prod.fst = List.replicate cnt v := by
  simp [stateSends, Function.comp_def]

/-! ### The indices stay inside the buffer (rule R99) -/

theorem setSends_lt {o : BitOrder} {len pat : Nat} : ∀ p ∈ setSends o len pat, p.2 < len := by
  simp [setSends, mem_seq]

theorem shiftSends_lt {o : BitOrder} {n pat len : Nat} (h : n ≤ len) : ∀ p ∈ shiftSends o n pat, p.2 < len := by
  intro p hp
  simp only [shiftSends, List.mem_map] at hp
  obtain ⟨⟨i, j⟩, hq, rfl⟩ := hp
  have := List.snd_lt_of_mem_zipIdx hq
  simp at this ⊢; omega

theorem stateSends_lt {cnt len : Nat} {v : Bool} (h : cnt ≤ len) : ∀ p ∈ stateSends cnt v, p.2 < len := by
  simp only [stateSends, List.mem_map, List.mem_range]
  rintro p ⟨j, hj, rfl⟩
  simp; omega

theorem runIndices_lt {idx cnt len : Nat} (h : idx + cnt ≤ len) : ∀ i ∈ runIndices idx cnt, i < len := by
  simp only [runIndices, List.mem_map, List.mem_range]
  rintro i ⟨j, hj, rfl⟩; omega

/-! ### The buffer afterwards -/

/-- SET stores the pattern, whatever the order and the buffer before (rules R44, R130). -/
theorem storeAll_setSends {o : BitOrder} {len pat : Nat} {buf : Bits} (h : buf.length = len) :
    storeAll (setSends o len pat) buf = bitsOfNat len pat := by
  apply List.ext_getElem?
  intro k
  rw [bitsOfNat_getElem?]
  split
  · refine storeAll_getElem?_of_mem ?_ ⟨(pat.testBit k, k), ?_, rfl⟩ (by omega)
    · simp only [setSends, List.mem_map]
      rintro p ⟨i, _, rfl⟩ rfl; rfl
    · simp [setSends, mem_seq, patBit]; omega
  · rw [List.getElem?_eq_none]; simp; omega

/-- Bits stored downwards from `n - 1`: the `j`-th at index `n - 1 - j`, the rest kept. -/
theorem storeAll_downwards {n : Nat} {bits new rest : Bits} {l : List (Bool × Nat)} (hb : bits.length = n)
    (hn : new.length = n) (hl : l = bits.zipIdx.map fun p => (p.1, n - 1 - p.2)) :
    storeAll l (new ++ rest) = bits.reverse ++ rest := by
  subst hl
  apply List.ext_getElem?
  intro k
  by_cases hk : k < n
  · rw [List.getElem?_append_left (by simpa [hb] using hk), List.getElem?_reverse (by omega)]
    have hj : bits.length - 1 - k < bits.length := by omega
    rw [List.getElem?_eq_getElem hj]
    apply storeAll_getElem?_of_mem
    · simp only [List.mem_map]
      rintro p ⟨⟨b, j⟩, hq, rfl⟩ hpk
      have h1 := List.mk_mem_zipIdx_iff_getElem?.mp hq
      have h2 : j < n := hb ▸ (List.getElem?_eq_some_iff.mp h1).1
      have h3 : bits.length - 1 - k = j := by simp at hpk; omega
      simp [h3, List.getElem?_eq_some_iff.mp h1 |>.2]
    · refine ⟨(bits[bits.length - 1 - k], k), ?_, rfl⟩
      rw [List.mem_map]
      refine ⟨(bits[bits.length - 1 - k], bits.length - 1 - k), ?_, ?_⟩
      · rw [List.mk_mem_zipIdx_iff_getElem?, List.getElem?_eq_getElem hj]
      · simp; omega
    · simp; omega
  · rw [storeAll_getElem?_of_not_mem, List.getElem?_append_right (by omega),
      List.getElem?_append_right (by simp; omega), List.length_reverse, hb, hn]
    simp only [List.mem_map]
    rintro p ⟨⟨b, j⟩, hq, rfl⟩
    have := List.snd_lt_of_mem_zipIdx hq
    simp at this ⊢; omega

/-- SHIFT leaves the pattern, or its reversal under LSF, below the moved bits, and no free value (rules R150, R151,
R171). -/
theorem storeAll_shiftSends {o : BitOrder} {n pat : Nat} {new rest : Bits} (h : new.length = n) :
    storeAll (shiftSends o n pat) (new ++ rest) = shiftedInBits o n pat ++ rest := by
  rw [← reverse_patternBits]
  refine storeAll_downwards (patternBits_length o n pat) h ?_
  simp [shiftSends, patternBits, patBit, List.zipIdx_map]

/-- SHIFTSTATE leaves `cnt` copies of its value below the moved bits, and no free value (rules R152, R171). -/
theorem storeAll_stateSends {cnt : Nat} {v : Bool} {new rest : Bits} (h : new.length = cnt) :
    storeAll (stateSends cnt v) (new ++ rest) = List.replicate cnt v ++ rest := by
  rw [← List.reverse_replicate (n := cnt) (a := v)]
  refine storeAll_downwards (by simp) h ?_
  apply List.ext_getElem <;> simp [stateSends]

/-- SETBITS sets exactly the bits of its run (rules R132, R180). -/
theorem storeAll_runIndices {idx cnt : Nat} {v : Bool} {buf : Bits} :
    storeAll ((runIndices idx cnt).map fun i => (v, i)) buf = runSet idx cnt v buf := by
  apply List.ext_getElem?
  intro k
  simp only [runSet, List.getElem?_mapIdx]
  by_cases hr : idx ≤ k ∧ k < idx + cnt
  · by_cases hk : k < buf.length
    · rw [storeAll_getElem?_of_mem (c := v) (by simp) ?_ hk]
      · simp [hr, hk]
      · exact ⟨(v, k), by simp [runIndices]; exact ⟨k - idx, by omega, by omega⟩, rfl⟩
    · rw [List.getElem?_eq_none (by simpa using hk)]; simp [hk]
  · rw [storeAll_getElem?_of_not_mem]
    · simp [hr]
    · simp [runIndices]; omega

@[simp] theorem runSet_length (idx cnt : Nat) (v : Bool) (buf : Bits) : (runSet idx cnt v buf).length = buf.length := by
  simp [runSet]

end Sys2Proof.Machine
end

