-- ==== Sys2Proof/Laws/Chain.lean ====
section
/-! SUPPORT. The chain after a run of bits (rule R98), and that every operation keeps the form of a state: the canonical
form of the model's storage is that each of the three bit vectors has exactly `L` bits (rules R55, R170). -/

namespace Sys2Proof.Machine

/-! ### The stages after a run of bits (rule R98) -/

/-- At most `L` bits sent: they fill the low stages in reverse order of sending, the others move up. -/
theorem sentStages_of_le {bits stage : Bits} (h : bits.length ≤ stage.length) :
    sentStages bits stage = bits.reverse ++ stage.take (stage.length - bits.length) := by
  rw [sentStages, List.take_append, List.take_of_length_le (by simpa using h), List.length_reverse]

/-- Exactly `L` bits sent: nothing of the old stages is left. -/
theorem sentStages_of_eq {bits stage : Bits} (h : bits.length = stage.length) : sentStages bits stage = bits.reverse := by
  rw [sentStages_of_le h.le, h, Nat.sub_self, List.take_zero, List.append_nil]

/-- More than `L` bits sent: only the last `L` of them are left. -/
theorem sentStages_of_ge {bits stage : Bits} (h : stage.length ≤ bits.length) :
    sentStages bits stage = (bits.drop (bits.length - stage.length)).reverse := by
  rw [sentStages, List.take_append, List.length_reverse, Nat.sub_eq_zero_of_le h, List.take_zero, List.append_nil,
    List.take_reverse]

/-! ### The form of a state is kept -/

theorem emit_wf {s : State} (p : Pin) (v : Bool) (h : s.WF) : (emit p v s).WF := by
  obtain ⟨hb, hs, ho⟩ := h
  refine ⟨hb, ?_, ?_⟩
  · simp only [emit_chain, emit_len]; split
    · rw [react_stage_length, hs]
    · exact hs
  · simp only [emit_chain, emit_len]; split
    · rw [react_out_length _ _ _ _ (ho.trans hs.symm), hs]
    · exact ho

theorem replay_wf {s : State} (evs : List PinEvent) (h : s.WF) : (replay evs s).WF := by
  induction evs generalizing s with
  | nil => exact h
  | cons e es ih => exact ih (emit_wf _ _ h)

theorem setBuf_wf {s : State} {b : Bits} (hb : b.length = s.len) (h : s.WF) : (setBuf b s).WF := ⟨hb, h.2⟩

theorem respond_wf {s : State} (st : Status) (h : s.WF) : (respond st s).WF := h

theorem driveLines_wf {s : State} (h : s.WF) : (driveLines s).WF := by
  obtain ⟨hb, hs, ho⟩ := h
  refine ⟨hb, ?_, ?_⟩ <;> simp only [driveLines_chain, driveLines_len] <;> split <;> simp_all

theorem hardwareReset_wf {s : State} (h : s.WF) : (hardwareReset s).WF := ⟨by simp, h.2⟩

theorem disturbChain_wf {s : State} (h : s.WF) : (disturbChain s).WF :=
  ⟨h.1, undefBits_length _ _, undefBits_length _ _⟩

theorem powerOn_wf (n : ChipCount) (host : List HostInput) (d : Nat) : (State.powerOn n host d).WF :=
  ⟨zeros_length _, undefBits_length _ _, undefBits_length _ _⟩

theorem shiftedBuf_length {new buf : Bits} {c len : Nat} (hn : new.length = c) (hb : buf.length = len) (h : c ≤ len) :
    (shiftedBuf new c len buf).length = len := by
  simp [shiftedBuf, hn, hb]; omega

end Sys2Proof.Machine
end

