-- ==== Sys2Proof/Laws/Commands.lean ====
section
/-! SUPPORT. What each command comes to, once its loops are run: validation, a new buffer, bits on the wire, the latch pulse,
the status. A proof about a command starts from its `exec…_eq` and the laws of the operations. -/

namespace Sys2Proof.Machine

theorem execClear_eq (s : State) :
    execClear s = .next (respond .ok (setBuf (zeros s.len) (pulseLatch (pulseReset s)))) := rfl

theorem execRefresh_eq (s : State) : execRefresh s = .next (respond .ok (pulseLatch s)) := rfl

theorem execSetorder_eq (o : BitOrder) (s : State) : execSetorder o s = .next (respond .ok (setOrder o s)) := rfl

/-- SET (rules R130, R202): the wire carries the pattern in traversal order, the buffer becomes the pattern. -/
theorem execSet_eq (n : Operand) (pat : Nat) (s : State) (h : s.buf.length = s.len) :
    execSet n pat s =
      if n.toNat = s.len then
        .next (respond .ok (pulseLatch (setBuf (bitsOfNat s.len pat) (sendBits (patternBits s.order s.len pat) s))))
      else .next (respond .lengthMismatch s) := by
  simp only [execSet, lengthIsExact, opVal, beq_iff_eq]
  split
  · rw [sendStore_next setSends_lt, andThen_next, storeAll_setSends h, setSends_bits]; rfl
  · rfl

/-- SETBIT (rules R131, R202): one bit written, then the whole buffer on the wire, highest index first. -/
theorem execSetbit_eq (idx : Operand) (v : Bool) (s : State) (h : s.buf.length = s.len) :
    execSetbit idx v s =
      if idx.toNat < s.len then
        .next (respond .ok (pulseLatch (setBuf (s.buf.set idx.toNat v) (sendBits (s.buf.set idx.toNat v).reverse s))))
      else .next (respond .indexOutOfRange s) := by
  simp only [execSetbit, indexInRange, opVal, decide_eq_true_eq]
  split
  · next hi =>
    rw [bbWrite_next v hi, andThen_next, retransmitAll_next (by simp [h]), andThen_next, setBuf_buf, sendBits_setBuf]; rfl
  · rfl

/-- SETBITS (rules R132, R202): a run written, then the whole buffer on the wire, highest index first. -/
theorem execSetbits_eq (idx cnt : Operand) (v : Bool) (s : State) (h : s.buf.length = s.len) :
    execSetbits idx cnt v s =
      if idx.toNat + cnt.toNat ≤ s.len then
        .next (respond .ok (pulseLatch (setBuf (runSet idx.toNat cnt.toNat v s.buf)
          (sendBits (runSet idx.toNat cnt.toNat v s.buf).reverse s))))
      else .next (respond .indexOutOfRange s) := by
  simp only [execSetbits, rangeInBuffer, opVal, decide_eq_true_eq]
  split
  · next hi =>
    rw [writeBits_next v (runIndices_lt hi), andThen_next, storeAll_runIndices, retransmitAll_next (by simp [h]),
      andThen_next, setBuf_buf, sendBits_setBuf]; rfl
  · rfl

/-- The state after ShiftForward and a run of Transmits that stores into every vacated bit: `count` free values were drawn,
none is left (rule R171). -/
def shiftedState (bits low : Bits) (count : Nat) (s : State) : State :=
  setBuf (low ++ s.buf.take (s.len - count)) (sendBits bits { s with draws := s.draws + count })

/-- ShiftForward, then the loop of a shift command. -/
theorem shift_then_send {count : Nat} {l : List (Bool × Nat)} {low : Bits} {s : State} (hc : count ≤ s.len)
    (hl : ∀ p ∈ l, p.2 < s.len)
    (hs : ∀ new rest : Bits, new.length = count → storeAll l (new ++ rest) = low ++ rest) :
    andThen (shiftForward count s) (sendStore l) = .next (shiftedState (l.map Prod.fst) low count s) := by
  rw [shiftForward_next hc, andThen_next]
  refine Eq.trans (sendStore_next (by exact hl)) ?_
  simp only [shiftedBuf, hs _ _ (undefBits_length _ _)]
  have h := sendBits_setBuf (l.map Prod.fst) (Config.undefBits s.draws count ++ s.buf.take (s.len - count))
    { s with draws := s.draws + count }
  exact congrArg Host.Outcome.next ((congrArg (setBuf (low ++ s.buf.take (s.len - count))) h).trans rfl)

/-- SHIFT (rules R150, R151, R202). -/
theorem execShift_eq (n : Operand) (pat : Nat) (s : State) :
    execShift n pat s =
      if n.toNat ≤ s.len then
        .next (respond .ok (pulseLatch
          (shiftedState (patternBits s.order n.toNat pat) (shiftedInBits s.order n.toNat pat) n.toNat s)))
      else .next (respond .lengthMismatch s) := by
  simp only [execShift, lengthFits, opVal, decide_eq_true_eq]
  split
  · next hn =>
    rw [shift_then_send hn (shiftSends_lt hn) fun _ _ h => storeAll_shiftSends h, andThen_next, shiftSends_bits]; rfl
  · rfl

/-- SHIFTSTATE (rules R152, R202). -/
theorem execShiftstate_eq (cnt : Operand) (v : Bool) (s : State) :
    execShiftstate cnt v s =
      if cnt.toNat ≤ s.len then
        .next (respond .ok (pulseLatch
          (shiftedState (List.replicate cnt.toNat v) (List.replicate cnt.toNat v) cnt.toNat s)))
      else .next (respond .lengthMismatch s) := by
  simp only [execShiftstate, lengthFits, opVal, decide_eq_true_eq]
  split
  · next hn =>
    rw [shift_then_send hn (stateSends_lt hn) fun _ _ h => storeAll_stateSends h, andThen_next, stateSends_bits]; rfl
  · rfl

/-- SHIFTONEBIT (rule R153). -/
theorem execShiftonebit_eq (v : Bool) (s : State) :
    execShiftonebit v s = .next (respond .ok (shiftedState [v] [v] 1 s)) := by
  have h1 : 1 ≤ s.len := by have := len_bounds s; omega
  rw [execShiftonebit, shift_then_send (low := [v]) h1 (by simp [oneSend]; omega), andThen_next]
  · rfl
  · intro new rest hn
    match new, hn with
    | [_], _ => rfl

/-! ### The shape every command has -/

/-- The state after these pulses, with a new buffer, BitOrder and count of draws. -/
def afterPulses (ps : List Pulse) (b : Bits) (o : BitOrder) (d : Nat) (s : State) : State :=
  replay (pulseEvents ps) { s with buf := b, order := o, draws := d }

/-- The only data-moving part of a command, as pulses. -/
theorem sendBits_setBuf_pulses (bits b : Bits) (d : Nat) (s : State) :
    setBuf b (sendBits bits { s with draws := d }) = afterPulses (bits.map .bit) b s.order d s := by
  rw [← sendBits_setBuf, sendBits_eq_replay]; rfl

theorem pulseLatch_afterPulses (ps : List Pulse) (b : Bits) (o : BitOrder) (d : Nat) (s : State) :
    pulseLatch (afterPulses ps b o d s) = afterPulses (ps ++ [.latch]) b o d s := by
  rw [afterPulses, afterPulses, pulseEvents_append, replay_append]; rfl

/-- The pulses of a command in a state, when it is accepted (rule R186). -/
def commandPulses (i : Instr) (s : State) : List Pulse :=
  match i with
  | .clear => [.reset, .latch]
  | .refresh => [.latch]
  | .setorder _ => []
  | .set _ pat => (patternBits s.order s.len pat).map .bit ++ [.latch]
  | .setbit idx v => (s.buf.set idx.toNat v).reverse.map .bit ++ [.latch]
  | .setbits idx cnt v => (runSet idx.toNat cnt.toNat v s.buf).reverse.map .bit ++ [.latch]
  | .shift n pat => (patternBits s.order n.toNat pat).map .bit ++ [.latch]
  | .shiftstate cnt v => (List.replicate cnt.toNat v).map .bit ++ [.latch]
  | .shiftonebit v => [.bit v]

/-- The buffer an accepted command leaves. -/
def commandBuf (i : Instr) (s : State) : Bits :=
  match i with
  | .clear => zeros s.len
  | .refresh | .setorder _ => s.buf
  | .set _ pat => bitsOfNat s.len pat
  | .setbit idx v => s.buf.set idx.toNat v
  | .setbits idx cnt v => runSet idx.toNat cnt.toNat v s.buf
  | .shift n pat => shiftedInBits s.order n.toNat pat ++ s.buf.take (s.len - n.toNat)
  | .shiftstate cnt v => List.replicate cnt.toNat v ++ s.buf.take (s.len - cnt.toNat)
  | .shiftonebit v => v :: s.buf.take (s.len - 1)

/-- The BitOrder an accepted command leaves (rule R31). -/
def commandOrder (i : Instr) (s : State) : BitOrder :=
  match i with
  | .setorder o => o
  | .clear | .refresh | .set _ _ | .setbit _ _ | .setbits _ _ _ | .shift _ _ | .shiftstate _ _ | .shiftonebit _ => s.order

/-- How many free values an accepted command draws: the bits ShiftForward vacates. -/
def commandDraws (i : Instr) : Nat :=
  match i with
  | .shift n _ => n.toNat
  | .shiftstate cnt _ => cnt.toNat
  | .shiftonebit _ => 1
  | .clear | .refresh | .setorder _ | .set _ _ | .setbit _ _ | .setbits _ _ _ => 0

/-- The status a command is answered with (rules R81, R202). -/
def commandStatus (i : Instr) (s : State) : Status :=
  match i with
  | .clear | .refresh | .setorder _ | .shiftonebit _ => .ok
  | .set n _ => if n.toNat = s.len then .ok else .lengthMismatch
  | .setbit idx _ => if idx.toNat < s.len then .ok else .indexOutOfRange
  | .setbits idx cnt _ => if idx.toNat + cnt.toNat ≤ s.len then .ok else .indexOutOfRange
  | .shift n _ => if n.toNat ≤ s.len then .ok else .lengthMismatch
  | .shiftstate cnt _ => if cnt.toNat ≤ s.len then .ok else .lengthMismatch

/-- Everything a command can do, said once: it is rejected and does nothing, or it is accepted and does its pulses. It never
stops. -/
theorem exec_eq (i : Instr) (s : State) (h : s.buf.length = s.len) :
    exec i s =
      if commandStatus i s = .ok then
        .next (respond .ok (afterPulses (commandPulses i s) (commandBuf i s) (commandOrder i s)
          (s.draws + commandDraws i) s))
      else .next (respond (commandStatus i s) s) := by
  cases i with
  | clear => rfl
  | refresh => rfl
  | setorder o => rfl
  | set n pat =>
    simp only [exec, execSet_eq n pat s h, commandStatus]
    split
    · rw [if_pos rfl, show sendBits _ s = sendBits _ { s with draws := s.draws } from rfl, sendBits_setBuf_pulses,
        pulseLatch_afterPulses]; rfl
    · rw [if_neg (by decide)]
  | setbit idx v =>
    simp only [exec, execSetbit_eq idx v s h, commandStatus]
    split
    · rw [if_pos rfl, show sendBits _ s = sendBits _ { s with draws := s.draws } from rfl, sendBits_setBuf_pulses,
        pulseLatch_afterPulses]; rfl
    · rw [if_neg (by decide)]
  | setbits idx cnt v =>
    simp only [exec, execSetbits_eq idx cnt v s h, commandStatus]
    split
    · rw [if_pos rfl, show sendBits _ s = sendBits _ { s with draws := s.draws } from rfl, sendBits_setBuf_pulses,
        pulseLatch_afterPulses]; rfl
    · rw [if_neg (by decide)]
  | shift n pat =>
    simp only [exec, execShift_eq n pat s, commandStatus]
    split
    · rw [if_pos rfl, shiftedState, sendBits_setBuf_pulses, pulseLatch_afterPulses]; rfl
    · rw [if_neg (by decide)]
  | shiftstate cnt v =>
    simp only [exec, execShiftstate_eq cnt v s, commandStatus]
    split
    · rw [if_pos rfl, shiftedState, sendBits_setBuf_pulses, pulseLatch_afterPulses]; rfl
    · rw [if_neg (by decide)]
  | shiftonebit v =>
    simp only [exec, execShiftonebit_eq v s, commandStatus, if_pos]
    rw [shiftedState, sendBits_setBuf_pulses]; rfl

/-- The buffer an accepted command leaves has `L` bits (rule R170). -/
theorem commandBuf_length {i : Instr} {s : State} (h : s.buf.length = s.len) (ha : commandStatus i s = .ok) :
    (commandBuf i s).length = s.len := by
  cases i <;> simp only [commandStatus] at ha <;> simp [commandBuf, h]
  · split at ha <;> [omega; cases ha]
  · split at ha <;> [omega; cases ha]
  · have := len_bounds s; omega

end Sys2Proof.Machine
end

