-- ==== Sys2Proof/Laws/PerInstr.lean ====
section
/-! SUPPORT. A statement about every command as syntax: its header selects the row of the opcode map that carries its
mnemonic (rule R77). One lemma per constructor. -/

namespace Sys2Proof

/-- The row with this mnemonic selects the command's header (rule R77). -/
def Laws.RowMatch.Statement (i : Instr) : Prop :=
  ∃ r ∈ opcodeRows, r.mnemonic = mnemonicOf i ∧ r.Selects (encodeHeader i)

/-- A mask that covers exactly the fields a row fixes leaves exactly those of a packed header. -/
theorem packHeader_and (op : BitVec 4) (f : Bool) (a b : Operand) (mf : Bool) (ma mb : Operand) :
    packHeader op f a b &&& (15#4 ++ 7#3 ++ BitVec.ofBool mf ++ ma ++ mb : BitVec 40) =
      packHeader op (f && mf) (a &&& ma) (b &&& mb) := by
  unfold packHeader
  have h1 : op &&& 15#4 = op := BitVec.and_allOnes
  have h2 : BitVec.ofBool f &&& BitVec.ofBool mf = BitVec.ofBool (f && mf) := by cases f <;> cases mf <;> rfl
  rw [BitVec.and_append, BitVec.and_append, BitVec.and_append, BitVec.and_append, h1, h2]; rfl

theorem Laws.RowMatch.clear : Laws.RowMatch.Statement .clear := ⟨opcodeRows[0], List.getElem_mem _, rfl, by decide⟩

theorem Laws.RowMatch.refresh : Laws.RowMatch.Statement .refresh :=
  ⟨opcodeRows[1], List.getElem_mem _, rfl, by decide⟩

theorem Laws.RowMatch.setorder (o : BitOrder) : Laws.RowMatch.Statement (.setorder o) :=
  ⟨opcodeRows[2], List.getElem_mem _, rfl, by cases o <;> decide⟩

theorem Laws.RowMatch.set (n : Operand) (pat : Nat) : Laws.RowMatch.Statement (.set n pat) :=
  ⟨opcodeRows[3], List.getElem_mem _, rfl, by
    refine (packHeader_and 4#4 false n 0#16 true 0#16 0xFFFF#16).trans ?_; simp; decide⟩

theorem Laws.RowMatch.setbit (idx : Operand) (s : Bool) : Laws.RowMatch.Statement (.setbit idx s) :=
  ⟨opcodeRows[4], List.getElem_mem _, rfl, by
    refine (packHeader_and 5#4 s idx 0#16 false 0#16 0xFFFF#16).trans ?_; simp; decide⟩

theorem Laws.RowMatch.setbits (idx cnt : Operand) (s : Bool) : Laws.RowMatch.Statement (.setbits idx cnt s) :=
  ⟨opcodeRows[5], List.getElem_mem _, rfl, by
    refine (packHeader_and 6#4 s idx cnt false 0#16 0#16).trans ?_; simp; decide⟩

theorem Laws.RowMatch.shift (n : Operand) (pat : Nat) : Laws.RowMatch.Statement (.shift n pat) :=
  ⟨opcodeRows[6], List.getElem_mem _, rfl, by
    refine (packHeader_and 7#4 false n 0#16 true 0#16 0xFFFF#16).trans ?_; simp; decide⟩

theorem Laws.RowMatch.shiftstate (cnt : Operand) (s : Bool) : Laws.RowMatch.Statement (.shiftstate cnt s) :=
  ⟨opcodeRows[7], List.getElem_mem _, rfl, by
    refine (packHeader_and 8#4 s cnt 0#16 false 0#16 0xFFFF#16).trans ?_; simp; decide⟩

theorem Laws.RowMatch.shiftonebit (s : Bool) : Laws.RowMatch.Statement (.shiftonebit s) :=
  ⟨opcodeRows[8], List.getElem_mem _, rfl, by cases s <;> decide⟩

end Sys2Proof
end

