-- ==== Sys2Proof/Laws/Encoding.lean ====
section
/-! SUPPORT. The fields of a packed header, and a header as the packing of its fields (rule R74). -/

namespace Sys2Proof

/-- Bit `i` of a packed header, field by field (rule R74). -/
theorem getLsbD_packHeader (op : BitVec 4) (f : Bool) (a b : Operand) (i : Nat) :
    (packHeader op f a b).getLsbD i =
      if i < 16 then b.getLsbD i else if i < 32 then a.getLsbD (i - 16)
      else if i < 33 then f else if i < 36 then false else op.getLsbD (i - 36) := by
  have h : (packHeader op f a b).getLsbD i =
      BitVec.getLsbD (w := 4 + 3 + 1 + 16 + 16) (op ++ 0#3 ++ BitVec.ofBool f ++ a ++ b) i := rfl
  simp only [h, BitVec.getLsbD_append]
  by_cases h1 : i < 16
  · simp [h1]
  by_cases h2 : i < 32
  · simp [h1, h2, show i - 16 < 16 by omega]
  by_cases h3 : i < 33
  · simp [h1, h2, h3, show ¬ i - 16 < 16 by omega, show i - 16 - 16 = 0 by omega]
  by_cases h4 : i < 36
  · simp [h1, h2, h3, h4, show ¬ i - 16 < 16 by omega, show ¬ i - 16 - 16 < 1 by omega,
      show i - 16 - 16 - 1 < 3 by omega]
  · simp [h1, h2, h3, h4, show ¬ i - 16 < 16 by omega, show ¬ i - 16 - 16 < 1 by omega,
      show ¬ i - 16 - 16 - 1 < 3 by omega, show i - 16 - 16 - 1 - 3 = i - 36 by omega]

@[simp] theorem opField_packHeader (op : BitVec 4) (f : Bool) (a b : Operand) : opField (packHeader op f a b) = op := by
  apply BitVec.eq_of_getLsbD_eq
  intro i hi
  simp [opField, hi, getLsbD_packHeader, show ¬ 36 + i < 16 by omega, show ¬ 36 + i < 32 by omega,
    show ¬ 36 + i < 33 by omega]

@[simp] theorem rsvField_packHeader (op : BitVec 4) (f : Bool) (a b : Operand) : rsvField (packHeader op f a b) = 0#3 := by
  apply BitVec.eq_of_getLsbD_eq
  intro i hi
  simp [rsvField, hi, getLsbD_packHeader, show ¬ 33 + i < 16 by omega, show ¬ 33 + i < 32 by omega,
    show 33 + i < 36 by omega]

@[simp] theorem flagField_packHeader (op : BitVec 4) (f : Bool) (a b : Operand) : flagField (packHeader op f a b) = f := by
  rw [flagField, getLsbD_packHeader]; simp

@[simp] theorem aField_packHeader (op : BitVec 4) (f : Bool) (a b : Operand) : aField (packHeader op f a b) = a := by
  apply BitVec.eq_of_getLsbD_eq
  intro i hi
  simp [aField, hi, getLsbD_packHeader, show ¬ 16 + i < 16 by omega, show 16 + i < 32 by omega]

@[simp] theorem bField_packHeader (op : BitVec 4) (f : Bool) (a b : Operand) : bField (packHeader op f a b) = b := by
  apply BitVec.eq_of_getLsbD_eq
  intro i hi
  simp [bField, hi, getLsbD_packHeader]

/-- A header with `rsv = 000` is the packing of its fields. -/
theorem packHeader_fields {h : Header} (hr : rsvField h = 0#3) :
    packHeader (opField h) (flagField h) (aField h) (bField h) = h := by
  apply BitVec.eq_of_getLsbD_eq
  intro i hi
  rw [getLsbD_packHeader]
  split
  · next h1 => simp [bField, h1]
  split
  · next h1 h2 => simp [aField, show i - 16 < 16 by omega, show 16 + (i - 16) = i by omega]
  split
  · next h1 h2 h3 => rw [flagField, show i = 32 by omega]
  split
  · next h1 h2 h3 h4 =>
    have h5 := congrArg (fun v => v.getLsbD (i - 33)) hr
    simp [rsvField, show i - 33 < 3 by omega, show 33 + (i - 33) = i by omega] at h5
    rw [h5]
  · next h1 h2 h3 h4 => simp [opField, show i - 36 < 4 by omega, show 36 + (i - 36) = i by omega]

end Sys2Proof
end

