-- ==== Sys2Proof/Laws/Runs.lean ====
section
/-! SUPPORT. What a command leaves in every part of the state, read off its pulses: the levels, the chain, the outputs after
any part of its events, the response; and what INIT leaves. -/

namespace Sys2Proof.Machine

/-! ### Whole pulses -/

/-- Whole pulses end at the idle levels they began with (rule R116). -/
theorem pulse_idle (p : Pulse) {l : Levels} (h : l.clock = false ∧ l.latch = false ∧ l.reset = true) :
    (p.events.foldl (fun l e => l.put e.pin e.level) l).clock = false ∧
      (p.events.foldl (fun l e => l.put e.pin e.level) l).latch = false ∧
      (p.events.foldl (fun l e => l.put e.pin e.level) l).reset = true := by
  cases p <;> simp [Pulse.events, Levels.put, h]

theorem pulses_idle (ps : List Pulse) {l : Levels} (h : l.clock = false ∧ l.latch = false ∧ l.reset = true) :
    ((pulseEvents ps).foldl (fun l e => l.put e.pin e.level) l).clock = false ∧
      ((pulseEvents ps).foldl (fun l e => l.put e.pin e.level) l).latch = false ∧
      ((pulseEvents ps).foldl (fun l e => l.put e.pin e.level) l).reset = true := by
  induction ps generalizing l with
  | nil => exact h
  | cons p ps ih =>
    rw [show pulseEvents (p :: ps) = p.events ++ pulseEvents ps from rfl, List.foldl_append]
    exact ih (pulse_idle p h)

theorem chainAfter_append (oe : Bool) (as bs : List PinEvent) (l : Levels) (c : Chain) :
    chainAfter oe (as ++ bs) l c =
      chainAfter oe bs (as.foldl (fun l e => l.put e.pin e.level) l) (chainAfter oe as l c) := by
  induction as generalizing l c with
  | nil => rfl
  | cons e es ih => exact ih _ _

/-- Bits on driven, idle lines move the stages and nothing else (rules R56, R98). -/
theorem chainAfter_bits (bits : Bits) {l : Levels} (c : Chain) (hc : l.clock = false) (hr : l.reset = true) :
    chainAfter true (bitEvents bits) l c = { c with stage := sentStages bits c.stage } := by
  induction bits generalizing l c with
  | nil => simp [chainAfter, sentStages]
  | cons b bs ih =>
    rw [bitEvents_cons]
    simp only [Pulse.events, List.cons_append, List.nil_append, chainAfter, if_true]
    rw [ih _ (by simp [Levels.put]) (by simp [Levels.put, hr])]
    simp [Chain.react, Levels.put, hc, hr, sentStages_cons]

/-- Bits and a latch pulse: the outputs show the new stages (rules R57, R98). -/
theorem chainAfter_bits_latch (bits : Bits) {l : Levels} (c : Chain)
    (h : l.clock = false ∧ l.latch = false ∧ l.reset = true) :
    chainAfter true (pulseEvents (bits.map .bit ++ [.latch])) l c =
      { stage := sentStages bits c.stage, out := sentStages bits c.stage } := by
  have hi := pulses_idle (bits.map .bit) h
  rw [pulseEvents_append, chainAfter_append, show pulseEvents (bits.map .bit) = bitEvents bits from rfl,
    chainAfter_bits _ _ h.1 h.2.2]
  rw [show pulseEvents (bits.map .bit) = bitEvents bits from rfl] at hi
  simp [pulseEvents, Pulse.events, chainAfter, Chain.react, hi]

/-- Without a rising latch edge the outputs stay (rule R59). -/
theorem chainAfter_out_of_no_latch (evs : List PinEvent) (oe : Bool) (l : Levels) (c : Chain)
    (h : (⟨.latch, true⟩ : PinEvent) ∉ evs) : (chainAfter oe evs l c).out = c.out := by
  induction evs generalizing l c with
  | nil => rfl
  | cons e es ih =>
    rw [chainAfter, ih _ _ fun he => h (List.mem_cons_of_mem _ he)]
    obtain ⟨p, v⟩ := e
    cases oe
    · rfl
    · cases p <;> cases v <;> first | exact absurd List.mem_cons_self h | skip
      all_goals simp only [Chain.react, if_true, Chain.cleared]
      split <;> [rfl; (split <;> rfl)]

/-! ### The state after pulses, field by field -/

/-- Everything `afterPulses` does. -/
theorem afterPulses_eq (ps : List Pulse) (b : Bits) (o : BitOrder) (d : Nat) (s : State) :
    afterPulses ps b o d s =
      { s with
        buf := b
        order := o
        draws := d
        chain := chainAfter s.oe (pulseEvents ps) s.lvl s.chain
        lvl := (pulseEvents ps).foldl (fun l e => l.put e.pin e.level) s.lvl
        trace := s.trace ++ pulseEvents ps } := by rw [afterPulses, replay_eq]

theorem afterPulses_wf {ps : List Pulse} {b : Bits} {o : BitOrder} {d : Nat} {s : State} (h : s.WF)
    (hb : b.length = s.len) : (afterPulses ps b o d s).WF :=
  replay_wf (s := { s with buf := b, order := o, draws := d }) _ ⟨hb, h.2⟩

/-! ### A command, once it has given a next state -/

/-- A command that gives a next state was accepted and did its pulses, or was rejected and did nothing. -/
theorem exec_cases {i : Instr} {s t : State} (hw : s.WF) (h : exec i s = .next t) :
    (commandStatus i s = .ok ∧
      t = respond .ok (afterPulses (commandPulses i s) (commandBuf i s) (commandOrder i s) (s.draws + commandDraws i) s)) ∨
    (commandStatus i s ≠ .ok ∧ t = respond (commandStatus i s) s) := by
  rw [exec_eq i s hw.1] at h
  split at h
  · next hk => cases h; exact .inl ⟨hk, rfl⟩
  · next hk => cases h; exact .inr ⟨hk, rfl⟩

/-- The stages an accepted command leaves. -/
def commandStage (i : Instr) (s : State) : Bits :=
  match i with
  | .clear => zeros s.len
  | .refresh | .setorder _ => s.chain.stage
  | .set _ pat => shiftedInBits s.order s.len pat
  | .setbit idx v => s.buf.set idx.toNat v
  | .setbits idx cnt v => runSet idx.toNat cnt.toNat v s.buf
  | .shift n pat => shiftedInBits s.order n.toNat pat ++ s.chain.stage.take (s.len - n.toNat)
  | .shiftstate cnt v => List.replicate cnt.toNat v ++ s.chain.stage.take (s.len - cnt.toNat)
  | .shiftonebit v => v :: s.chain.stage.take (s.len - 1)

/-- The outputs an accepted command leaves: its stages, but for the two commands that end without a latch pulse. -/
def commandOut (i : Instr) (s : State) : Bits :=
  match i with
  | .setorder _ | .shiftonebit _ => s.chain.out
  | .clear | .refresh | .set _ _ | .setbit _ _ | .setbits _ _ _ | .shift _ _ | .shiftstate _ _ => commandStage i s

/-- The chain after an accepted command's pulses on driven, idle lines (rules R56 to R58). -/
theorem chainAfter_command {i : Instr} {s : State} (hw : s.WF) (hr : s.Ready) (hk : commandStatus i s = .ok) :
    chainAfter true (pulseEvents (commandPulses i s)) s.lvl s.chain = ⟨commandStage i s, commandOut i s⟩ := by
  obtain ⟨hb, hs, ho⟩ := hw
  have full : ∀ b : Bits, b.length = s.len → sentStages b.reverse s.chain.stage = b := by
    intro b h; rw [sentStages_of_eq (by simp [h, hs]), List.reverse_reverse]
  have low : ∀ b : Bits, b.length ≤ s.len →
      sentStages b s.chain.stage = b.reverse ++ s.chain.stage.take (s.len - b.length) := by
    intro b h; rw [sentStages_of_le (by omega), hs]
  cases i with
  | clear =>
    simp [commandPulses, pulseEvents, Pulse.events, chainAfter, Chain.react, Chain.cleared, Levels.put, commandStage,
      commandOut, hs, hr.2.2]
  | refresh =>
    simp [commandPulses, pulseEvents, Pulse.events, chainAfter, Chain.react, commandStage, commandOut, hr.2.2]
  | setorder o => simp [commandPulses, pulseEvents, chainAfter, commandStage, commandOut]
  | set n p =>
    have h := full (shiftedInBits s.order s.len p) (by simp)
    rw [← reverse_patternBits, List.reverse_reverse, reverse_patternBits] at h
    rw [commandPulses, chainAfter_bits_latch _ _ hr.2.2, h]; rfl
  | setbit idx v => rw [commandPulses, chainAfter_bits_latch _ _ hr.2.2, full _ (by simpa using hb)]; rfl
  | setbits idx cnt v => rw [commandPulses, chainAfter_bits_latch _ _ hr.2.2, full _ (by simpa using hb)]; rfl
  | shift n p =>
    have hn : n.toNat ≤ s.len := by simp only [commandStatus] at hk; split at hk <;> [assumption; cases hk]
    rw [commandPulses, chainAfter_bits_latch _ _ hr.2.2, low _ (by simpa using hn), reverse_patternBits]
    simp [commandStage, commandOut]
  | shiftstate n v =>
    have hn : n.toNat ≤ s.len := by simp only [commandStatus] at hk; split at hk <;> [assumption; cases hk]
    rw [commandPulses, chainAfter_bits_latch _ _ hr.2.2, low _ (by simpa using hn)]
    simp [commandStage, commandOut]
  | shiftonebit v =>
    have := len_bounds s
    rw [commandPulses, show pulseEvents [.bit v] = bitEvents [v] from rfl, chainAfter_bits _ _ hr.2.2.1 hr.2.2.2.2,
      low _ (by simp; omega)]
    simp [commandStage, commandOut]

/-! ### INIT (rule R112) -/

theorem initBlock_eq_replay (s : State) :
    initBlock s = { replay initEvents (driveLines s) with buf := zeros s.len, order := .msf, initDone := true } := rfl

theorem initBlock_wf {s : State} (h : s.WF) : (initBlock s).WF := by
  have hr := replay_wf initEvents (driveLines_wf h)
  rw [initBlock_eq_replay]
  exact ⟨zeros_length _, hr.2⟩

/-- INIT leaves idle levels, given that the clock and latch lines were low (rules R112, R116). -/
theorem initBlock_lvl (s : State) :
    (initBlock s).lvl = { s.lvl with latch := false, reset := true } := rfl

/-! ### A reset inside a step (rule R233) -/

/-- INIT adds its five events. -/
theorem newEvents_initBlock (s : State) : newEvents s (initBlock s) = initEvents := by
  rw [initBlock_eq_replay, newEvents, replay_eq, driveLines_trace]; exact List.drop_left

/-- Everything a reset inside a step does: reset values, the chain as the events before it left it. -/
theorem cutAfter_eq (k : Nat) (s t : State) :
    cutAfter k s t =
      { hardwareReset s with
        chain := (replay ((newEvents s t).take k) (driveLines s)).chain
        host := t.host
        draws := t.draws } := by
  simp only [cutAfter, hardwareReset, replay_eq]; rfl

/-- On driven lines that are idle, configuring them again changes nothing. -/
theorem driveLines_ready {s : State} (h : s.Ready) : driveLines s = s := by
  obtain ⟨_, _, _, _, _, _, _, _, _, _, _⟩ := s
  obtain ⟨_, ho, _, _, hr⟩ := h
  simp only at ho hr
  subst ho
  simp [driveLines, hr]

end Sys2Proof.Machine
end

