-- ==== Sys2Proof/Tests/Slice0.lean ====
section
/-! SUPPORT. Tests of the model against the vectors of spec/95_test_vectors.md (cited as V<n>, S<n>, Program A to E) and
words written out from rules R74 to R77, and a witness for every statement that has hypotheses. Expected values are the
spec's. -/

namespace Sys2Proof.Tests

open Sys2Proof.Machine

/-! ### Helpers -/

/-- `N = 1`. -/
def one : ChipCount := ⟨1, by decide⟩

/-- `N = 2`. -/
def two : ChipCount := ⟨2, by decide⟩

/-- `N = 3`. -/
def three : ChipCount := ⟨3, by decide⟩

/-- A block ready for a command, with these numbers in buffer, stages and outputs. -/
def mk (n : ChipCount) (o : BitOrder) (buf stage out : Nat) : State where
  chips := n
  buf := bitsOfNat (8 * n.val) buf
  order := o
  lvl := ⟨false, false, false, true⟩
  oe := true
  initDone := true
  chain := ⟨bitsOfNat (8 * n.val) stage, bitsOfNat (8 * n.val) out⟩
  rsp := none
  trace := []
  host := []
  draws := 0

/-- Buffer, stages and outputs equal. -/
def at1 (o : BitOrder) (v : Nat) : State := mk one o v v v
def at2 (o : BitOrder) (v : Nat) : State := mk two o v v v

/-- A block at hardware reset with this chain and this queue. -/
def atReset1 (stage out : Nat) (host : List HostInput) : State :=
  { hardwareReset (mk one .lsf 0xFF stage out) with host := host }

/-- A field of the next state. -/
def get {α : Type} (f : State → α) : Result → Option α
  | .next s => some (f s)
  | .fault _ => none
  | .refused _ => none

def chainNat (s : State) : Nat × Nat := (natOfBits s.chain.stage, natOfBits s.chain.out)

/-- The bits sent, as the DATA events say. -/
def sent (s : State) : List Bool := (s.trace.filter fun e => e.pin = .data).map PinEvent.level

/-! ### WellFormed: its one check, the pattern's length, for the two commands that have a pattern -/

theorem test_set_pattern_too_long : ¬ (Instr.set 4 0b10000).WellFormed := by decide
theorem test_shift_pattern_too_long : ¬ (Instr.shift 4 0b10000).WellFormed := by decide
theorem test_shift_empty_pattern_not_zero : ¬ (Instr.shift 0 1).WellFormed := by decide
theorem test_set_pattern_longest : (Instr.set 4 0b1111).WellFormed := by decide
theorem test_other_commands_well_formed :
    Instr.clear.WellFormed ∧ Instr.refresh.WellFormed ∧ (Instr.setorder .lsf).WellFormed ∧
      (Instr.setbit 0xFFFF true).WellFormed ∧ (Instr.setbits 0xFFFF 0xFFFF false).WellFormed ∧
      (Instr.shiftstate 0 true).WellFormed ∧ (Instr.shiftonebit false).WellFormed ∧ (Instr.shift 0 0).WellFormed := by
  decide

/-! ### Decoding: the word of each command written out as op, rsv, f, a, b (rules R74, R77) -/

theorem test_decode_clear :
    decode 0b0001_000_0_0000000000000000_0000000000000000#40 0 = .ok .clear := by decide
theorem test_decode_refresh :
    decode 0b0010_000_0_0000000000000000_0000000000000000#40 0 = .ok .refresh := by decide
theorem test_decode_setorder_lsf :
    decode 0b0011_000_1_0000000000000000_0000000000000000#40 0 = .ok (.setorder .lsf) := by decide
theorem test_decode_setorder_msf :
    decode 0b0011_000_0_0000000000000000_0000000000000000#40 0 = .ok (.setorder .msf) := by decide
theorem test_decode_set :
    decode 0b0100_000_0_0000000000001000_0000000000000000#40 0x1B4 = .ok (.set 8 0xB4) := by decide
theorem test_decode_setbit :
    decode 0b0101_000_1_0000000000000011_0000000000000000#40 0xFF = .ok (.setbit 3 true) := by decide
theorem test_decode_setbits :
    decode 0b0110_000_1_0000000000000110_0000000000000100#40 0 = .ok (.setbits 6 4 true) := by decide
theorem test_decode_shift :
    decode 0b0111_000_0_0000000000000100_0000000000000000#40 0xFB = .ok (.shift 4 0xB) := by decide
theorem test_decode_shiftstate :
    decode 0b1000_000_0_1000000000000001_0000000000000000#40 0 = .ok (.shiftstate 0x8001 false) := by decide
theorem test_decode_shiftonebit :
    decode 0b1001_000_1_0000000000000000_0000000000000000#40 0 = .ok (.shiftonebit true) := by decide

/-- The reserved opcodes and reserved bits (V58 to V60, V63). -/
theorem test_decode_reserved :
    decode 0x0000000000#40 0 = .error .reservedOpcode ∧ decode 0xA000000000#40 0 = .error .reservedOpcode ∧
      decode 0xF000000000#40 0 = .error .reservedOpcode ∧ decode 0x5200000000#40 0 = .error .reservedField := by decide

/-- Unused fields that are not zero (V61, V62, V64 to V68). -/
theorem test_decode_unused_field :
    decode 0x4100030000#40 0 = .error .unusedField ∧ decode 0x1000000001#40 0 = .error .unusedField ∧
      decode 0x3000010000#40 0 = .error .unusedField ∧ decode 0x9100010000#40 0 = .error .unusedField ∧
      decode 0x7100040000#40 0 = .error .unusedField ∧ decode 0x8100030001#40 0 = .error .unusedField ∧
      decode 0x2100000000#40 0 = .error .unusedField := by decide

/-- Each command's encoder gives the word the spec writes (rule R77, 95_test_vectors.md Part 3). -/
theorem test_encode :
    encode .clear = (0x1000000000#40, 0) ∧ encode .refresh = (0x2000000000#40, 0) ∧
      encode (.setorder .lsf) = (0x3100000000#40, 0) ∧ encode (.set 16 0xA500) = (0x4000100000#40, 0xA500) ∧
      encode (.setbit 3 true) = (0x5100030000#40, 0) ∧ encode (.setbits 6 4 true) = (0x6100060004#40, 0) ∧
      encode (.shift 4 0xB) = (0x7000040000#40, 0xB) ∧ encode (.shiftstate 3 true) = (0x8100030000#40, 0) ∧
      encode (.shiftonebit true) = (0x9100000000#40, 0) := by decide

/-- The host's view of a table word. -/
theorem test_decode_table_word :
    decodeTableWord 40 0x8100030000 = some (.shiftstate 3 true) ∧ decodeTableWord 40 0 = none := by decide

/-! ### Reset and INIT -/

/-- V73: the values at hardware reset. -/
theorem test_reset_values : State.reset.AtReset ∧ cmdReady State.reset = false := by decide

/-- V11: the first step is INIT, five events, all zero, whatever the chain held. -/
theorem test_init_zeroes :
    get (fun s => (obsBuf s, chainNat s, s.initDone)) (step (atReset1 0xA5 0x3C [])) = some (0, (0, 0), true) := by decide
theorem test_init_events :
    get State.trace (step (atReset1 0xA5 0x3C [])) =
      some [⟨.reset, true⟩, ⟨.reset, false⟩, ⟨.reset, true⟩, ⟨.latch, true⟩, ⟨.latch, false⟩] := by decide

/-- V74: a command presented before INIT has finished is not accepted. -/
theorem test_command_waits_for_init :
    get State.host (step (atReset1 0 0 [.command 0x3100000000#40 0])) = some [.command 0x3100000000#40 0] := by decide

/-- V75: a reset after 5 of 16 Transmits (15 events) of SET 16, 0xA500: no response, and only those bits moved the chain:
1, 0, 1, 0, 0 sent, the first one farthest. -/
theorem test_reset_inside_set :
    get (fun s => (s.rsp, chainNat s))
      (step { at2 .msf 0 with host := [.resetAfter 15, .command 0x4000100000#40 0xA500] }) =
      some (none, (0b10100, 0)) := by decide

/-! ### One step per command -/

/-- V12: stages and outputs zero, the data line is not touched. -/
theorem test_clear :
    get (fun s => (obsBuf s, chainNat s, s.lvl.data))
      (exec .clear { mk one .msf 0x5F 0x5F 0x2F with lvl := ⟨true, false, false, true⟩ }) =
      some (0, (0, 0), true) := by decide

/-- V17: CLEAR keeps the order. -/
theorem test_clear_keeps_order : get State.order (exec .clear (at1 .lsf 0xB4)) = some .lsf := by decide

/-- V13. -/
theorem test_refresh : get chainNat (exec .refresh (mk one .msf 0x05 0x05 0x00)) = some (0x05, 0x05) := by decide
theorem test_refresh_events :
    get State.trace (exec .refresh (mk one .msf 0x05 0x05 0x00)) = some [⟨.latch, true⟩, ⟨.latch, false⟩] := by decide

/-- V14, V15. -/
theorem test_setorder_lsf :
    get (fun s => (s.order, s.trace)) (exec (.setorder .lsf) (at1 .msf 0)) = some (.lsf, []) := by decide
theorem test_setorder_msf : get State.order (exec (.setorder .msf) (at1 .lsf 0)) = some .msf := by decide

/-- V19: SET under LSF leaves the chain reversed. -/
theorem test_set_lsf :
    get (fun s => (obsBuf s, chainNat s)) (exec (.set 8 0xB4) (at1 .lsf 0)) = some (0xB4, (0x2D, 0x2D)) := by decide

/-- V18: the bits on the wire under MSF. -/
theorem test_set_wire :
    get sent (exec (.set 8 0xB4) (at1 .msf 0)) =
      some [true, false, true, true, false, true, false, false] := by decide

/-- V28: SETBIT sends most-significant-first even under LSF, and repairs the chain. -/
theorem test_setbit_repairs :
    get (fun s => (obsBuf s, chainNat s)) (exec (.setbit 0 false) (mk one .lsf 0xB4 0x2D 0x2D)) =
      some (0xB4, (0xB4, 0xB4)) := by decide

/-- V24. -/
theorem test_setbit_wire :
    get sent (exec (.setbit 3 true) (at1 .msf 0xB4)) =
      some [true, false, true, true, true, true, false, false] := by decide

/-- S9, V29: a run across the byte lanes. -/
theorem test_setbits_across_bytes :
    get (fun s => (obsBuf s, byteLane 0 s, byteLane 1 s)) (exec (.setbits 6 4 true) (at2 .msf 0)) =
      some (0x03C0, 0xC0#8, 0x03#8) := by decide

/-- V37: the sum of index and count does not wrap. -/
theorem test_setbits_no_wrap :
    get (fun s => (obsBuf s, s.rsp)) (exec (.setbits 65535 65535 true) (at1 .msf 0xB4)) =
      some (0xB4, some .indexOutOfRange) := by decide

/-- V39 and V40: SHIFT in both orders. -/
theorem test_shift_msf :
    get (fun s => (obsBuf s, chainNat s)) (exec (.shift 4 0b1011) (at1 .msf 0xA5)) = some (0x5B, (0x5B, 0x5B)) := by
  decide
theorem test_shift_lsf :
    get (fun s => (obsBuf s, sent s)) (exec (.shift 4 0b1011) (at1 .lsf 0xA5)) =
      some (0x5D, [true, true, false, true]) := by decide

/-- V52. -/
theorem test_shiftstate :
    get (fun s => (obsBuf s, chainNat s)) (exec (.shiftstate 3 true) (at2 .msf 0x03C0)) =
      some (0x1E07, (0x1E07, 0x1E07)) := by decide

/-- V51: an empty SHIFTSTATE is a bare latch pulse. -/
theorem test_shiftstate_empty :
    get (fun s => (obsBuf s, chainNat s)) (exec (.shiftstate 0 true) (mk one .msf 0x2F 0x2F 0x00)) =
      some (0x2F, (0x2F, 0x2F)) := by decide

/-- V53: no latch. -/
theorem test_shiftonebit :
    get (fun s => (obsBuf s, chainNat s)) (exec (.shiftonebit true) (at1 .msf 0x2F)) = some (0x5F, (0x5F, 0x2F)) := by
  decide

/-- V55: the highest bit is lost. -/
theorem test_shiftonebit_drops_top :
    get obsBuf (exec (.shiftonebit false) (at1 .msf 0x80)) = some 0 := by decide

/-! ### Steps -/

/-- V69: legality comes before the length. -/
theorem test_legality_first :
    get State.rsp (runCommand 0x4100100000#40 0 (at1 .msf 0)) = some (some .illegalCommand) := by decide

/-- V45: bits of the bus above the pattern are ignored. -/
theorem test_bus_above_pattern :
    get obsBuf (runCommand 0x7000040000#40 0xFB (at1 .msf 0xA5)) = some 0x5B := by decide

/-- The four codes of rule R81 on the response port: V14 (OK), V21 (LengthMismatch), V26 (IndexOutOfRange), V59
(IllegalCommand); no code before a response. -/
theorem test_status_codes :
    get rspStatus (runCommand 0x3100000000#40 0 (at1 .msf 0)) = some (some 0) ∧
      get rspStatus (runCommand 0x4000080000#40 0xA5 (at2 .msf 0x1E07)) = some (some 1) ∧
      get rspStatus (runCommand 0x5100080000#40 0 (at1 .msf 0xBC)) = some (some 2) ∧
      get rspStatus (runCommand 0xA000000000#40 0 (at1 .msf 0)) = some (some 3) ∧
      rspStatus (at1 .msf 0) = none := by decide

/-- V39: the data line stands at the last bit sent, the other lines at their idle levels (V77). -/
theorem test_driven_lines :
    get (fun t => (lineLevel t .data, lineLevel t .clock, lineLevel t .latch, lineLevel t .reset))
      (exec (.shift 4 0b1011) (at1 .msf 0xA5)) = some (some true, some false, some false, some true) := by decide

/-- The observation port: V39's buffer, V14's order, V15's order. -/
theorem test_observation_port :
    get obsBuf (exec (.shift 4 0b1011) (at1 .msf 0xA5)) = some 0x5B ∧
      get obsOrder (exec (.setorder .lsf) (at1 .msf 0)) = some true ∧
      get obsOrder (exec (.setorder .msf) (at1 .lsf 0)) = some false := by decide

/-- Rule R233: a reset inside INIT, before its latch pulse and after the latch line has risen. -/
theorem test_reset_inside_init :
    get chainNat (step (atReset1 0xA5 0x3C [.resetAfter 3])) = some (0, 0x3C) ∧
      get chainNat (step (atReset1 0xA5 0x3C [.resetAfter 4])) = some (0, 0) := by decide

/-- V71: the same header at three chain lengths. -/
theorem test_set_lengths :
    get State.rsp (runCommand 0x4000100000#40 0 (at1 .msf 0)) = some (some .lengthMismatch) ∧
      get State.rsp (runCommand 0x4000100000#40 0 (at2 .msf 0)) = some (some .ok) ∧
      get State.rsp (runCommand 0x4000100000#40 0 (mk three .msf 0 0 0)) = some (some .lengthMismatch) := by decide

/-- The word the host places is run by the very next step after reset (SHIFTONEBIT 1 after INIT, Program B). -/
theorem test_fetch_word_runs :
    get (fun s => (obsBuf s, s.trace.length, s.rsp)) (step (State.reset.withFetchWord 40 0x9100000000)) =
      some (0x0001, 8, some .ok) := by decide

/-- V5, V6, V4: the primitives inside and outside their ranges. -/
theorem test_primitive_faults :
    bbRead 7 (at1 .msf 0xA5) = .ok true ∧ bbRead 8 (at1 .msf 0xA5) = .error (.bitBufferIndex 8) ∧
      bbWrite 8 true (at1 .msf 0xA5) = .fault (.bitBufferIndex 8) ∧
      shiftForward 9 (at1 .msf 0xA5) = .fault (.shiftForwardCount 9) := ⟨rfl, rfl, rfl, rfl⟩

/-- V9. -/
theorem test_seq : seq .msf 4 = [3, 2, 1, 0] ∧ seq .lsf 4 = [0, 1, 2, 3] ∧ seq .msf 0 = [] := by decide

/-! ### Witnesses: for each statement with hypotheses, a state and operands that meet them, clause by clause -/

/-- A ready state, well formed: what most statements ask. -/
theorem witness_ready :
    (at1 .msf 0xA5).WF ∧ (at1 .msf 0xA5).Ready ∧ (at2 .lsf 0x1E07).WF ∧ (at2 .lsf 0x1E07).Ready := by decide

theorem witness_DecodeEncodeAgree :
    (Instr.set 16 0xA500).WellFormed ∧ (Instr.setbits 0 0xFFFF true).WellFormed ∧ Instr.clear.WellFormed := by decide

theorem witness_EncodeDecodeAgree :
    decode 0x4000080000#40 0xB4 = .ok (.set 8 0xB4) ∧ decode 0x8100030000#40 0xB4 = .ok (.shiftstate 3 true) := by decide

/-- One header for each way to be illegal, at the ends of the reserved opcodes; and legal ones. -/
theorem witness_IllegalHeadersAreRejected_opcode :
    IllegalFields 0x0FFFFFFFFF#40 ∧ IllegalFields 0xA000000000#40 ∧ IllegalFields 0xFFFFFFFFFF#40 := by decide
theorem witness_IllegalHeadersAreRejected_fields :
    IllegalFields 0x6E00000000#40 ∧ IllegalFields 0x7100000000#40 ∧ IllegalFields 0x9000010000#40 ∧
      IllegalFields 0x8000000001#40 := by decide
theorem witness_IllegalHeadersAreRejected_legal :
    ¬ IllegalFields 0x9100000000#40 ∧ ¬ IllegalFields 0x61FFFFFFFF#40 := by decide

theorem witness_OpcodeRowsAreDisjoint :
    ∃ r ∈ opcodeRows, r.Selects 0x61FFFFFFFF#40 := ⟨opcodeRows[5], List.getElem_mem _, by decide⟩

/-- Two buses that differ only above the pattern, at the lengths 0, 4 and `L`; a length above `L`, where every bus will do;
a command without a pattern. -/
theorem witness_PatternBusIsReadBelowItsLength :
    (∀ k < (aField 0x7000000000#40).toNat, (0xFF : Nat).testBit k = (0 : Nat).testBit k) ∧
      (∀ k < (aField 0x7000040000#40).toNat, (0xFB : Nat).testBit k = (0x0B : Nat).testBit k) ∧
      (∀ k < (aField 0x4000080000#40).toNat, (0x1B4 : Nat).testBit k = (0xB4 : Nat).testBit k) ∧
      ¬ (aField 0x7000090000#40).toNat ≤ (at1 .msf 0).len ∧
      ¬ (opField 0x1000000000#40 = 4#4 ∨ opField 0x1000000000#40 = 7#4) := by decide

/-- The first and last stage of a Transmit, and a stage between. -/
theorem witness_PulsesActOnTheChain :
    (at1 .msf 0xA5).WF ∧ (at1 .msf 0xA5).oe = true ∧ (at1 .msf 0xA5).lvl.reset = true ∧
      (at1 .msf 0xA5).lvl.clock = false ∧ (at1 .msf 0xA5).lvl.latch = false ∧ 1 ≤ 1 ∧ 7 < (at1 .msf 0xA5).len := by decide

theorem witness_TraversalOrderIsSeq : 0 < 8 ∧ 7 < 8 := by decide

theorem witness_BufferPrimitivesReadAndWrite :
    (at1 .msf 0xA5).WF ∧ 0 < (at1 .msf 0xA5).len ∧ 7 < (at1 .msf 0xA5).len ∧ (at1 .msf 0xA5).len ≤ 8 := by decide

/-- Counts 0, `L` and `L + 1`. -/
theorem witness_ShiftForwardMovesBits :
    (at1 .msf 0xA5).WF ∧ 0 ≤ (at1 .msf 0xA5).len ∧ 8 ≤ (at1 .msf 0xA5).len ∧ (at1 .msf 0xA5).len < 9 := by decide

theorem witness_InPlaceCopyRefinesShiftForward :
    (bitsOfNat 8 0xA5).length = 8 ∧ 3 ≤ 8 ∧ [true, false, true].length = 3 ∧ 8 ≤ 8 ∧ 0 ≤ 8 := by decide

theorem witness_RetransmitAllSendsTheBuffer : (mk one .lsf 0xB4 0x2D 0).WF ∧ (mk one .lsf 0xB4 0x2D 0).Ready := by decide

/-- Runs of `L` and of `L + 1` bits. -/
theorem witness_RunOfTransmissionsFillsTheStages :
    (at1 .msf 0xA5).WF ∧ (at1 .msf 0xA5).Ready ∧ (bitsOfNat 8 0xB4).length ≤ (at1 .msf 0xA5).len ∧
      (at1 .msf 0xA5).len < (bitsOfNat 9 0xB4).length := by decide

theorem witness_ClearZeroesBufferAndOutputs : (at1 .lsf 0xFF).WF ∧ (at1 .lsf 0xFF).Ready := by decide

theorem witness_RefreshLatchesTheStages : (mk one .msf 5 5 0).Ready := by decide

theorem witness_SetStoresThePattern :
    (at1 .lsf 0).WF ∧ (at1 .lsf 0).Ready ∧ (8 : Operand).toNat = (at1 .lsf 0).len ∧
      (16 : Operand).toNat = (at2 .msf 0).len := by decide

/-- The lowest and the highest index. -/
theorem witness_SetbitRewritesTheChain :
    (at1 .msf 0).WF ∧ (at1 .msf 0).Ready ∧ (0 : Operand).toNat < (at1 .msf 0).len ∧
      (7 : Operand).toNat < (at1 .msf 0).len := by decide

/-- A run to the end, the whole buffer, and the empty run at `L`. -/
theorem witness_SetbitsRewritesTheChain :
    (at1 .msf 0).WF ∧ (at1 .msf 0).Ready ∧ (6 : Operand).toNat + (2 : Operand).toNat ≤ (at1 .msf 0).len ∧
      (0 : Operand).toNat + (8 : Operand).toNat ≤ (at1 .msf 0).len ∧
      (8 : Operand).toNat + (0 : Operand).toNat ≤ (at1 .msf 0).len := by decide

/-- Lengths 0 and `L`. -/
theorem witness_ShiftInsertsThePattern :
    (at1 .lsf 0).WF ∧ (at1 .lsf 0).Ready ∧ (0 : Operand).toNat ≤ (at1 .lsf 0).len ∧
      (8 : Operand).toNat ≤ (at1 .lsf 0).len := by decide

theorem witness_ShiftstateInsertsCopies :
    (at1 .msf 0).WF ∧ (at1 .msf 0).Ready ∧ (0 : Operand).toNat ≤ (at1 .msf 0).len ∧
      (8 : Operand).toNat ≤ (at1 .msf 0).len := by decide

theorem witness_ShiftonebitInsertsWithoutLatch : (at1 .msf 0x80).WF ∧ (at1 .msf 0x80).Ready := by decide

/-- SETBIT at index 7; SETBITS of a run to the end, with an index below it, one inside it, and one above an inner run. -/
theorem witness_BitWritesLeaveOtherBits :
    (at1 .msf 0).WF ∧ (7 : Operand).toNat < (at1 .msf 0).len ∧ 0 ≠ (7 : Operand).toNat ∧
      (6 : Operand).toNat + (2 : Operand).toNat ≤ (at1 .msf 0).len ∧
      (6 : Operand).toNat ≤ 7 ∧ 7 < (6 : Operand).toNat + (2 : Operand).toNat ∧ 5 < (6 : Operand).toNat ∧
      (2 : Operand).toNat + (3 : Operand).toNat ≤ 5 := by decide

theorem witness_BitOrderAffectsShiftAndWireOnly_shift :
    (at1 .lsf 0xA5).WF ∧ (4 : Operand).toNat ≤ (at1 .lsf 0xA5).len ∧ 3 < (4 : Operand).toNat ∧
      (4 : Operand).toNat ≤ 4 ∧ 7 < (at1 .lsf 0xA5).len ∧ (8 : Operand).toNat = (at1 .lsf 0xA5).len := by decide
theorem witness_BitOrderAffectsShiftAndWireOnly_others :
    (at1 .lsf 0xA5).WF ∧ (∃ t, exec (.shiftstate 3 true) (at1 .lsf 0xA5) = .next t) ∧
      (∀ n p, Instr.shiftstate 3 true ≠ .set n p ∧ Instr.shiftstate 3 true ≠ .shift n p) ∧
      ∀ p, Instr.shiftstate 3 true ≠ .setorder p :=
  ⟨by decide, ⟨_, rfl⟩, fun _ _ => ⟨by simp, by simp⟩, fun _ => by simp⟩

/-- Each precondition just met and just broken. -/
theorem witness_PreconditionsDecideTheStatus :
    (at1 .msf 0).WF ∧ (at1 .msf 0).len = 8 ∧
      ((7 : Operand).toNat ≠ (at1 .msf 0).len ∧ (9 : Operand).toNat ≠ (at1 .msf 0).len) ∧
      (8 : Operand).toNat = (at1 .msf 0).len ∧ (at1 .msf 0).len < (9 : Operand).toNat ∧
      (at1 .msf 0).len ≤ (8 : Operand).toNat ∧ (7 : Operand).toNat < (at1 .msf 0).len ∧
      (at1 .msf 0).len < (8 : Operand).toNat + (1 : Operand).toNat ∧
      (8 : Operand).toNat + (0 : Operand).toNat ≤ (at1 .msf 0).len ∧
      (at1 .msf 0).len < (0xFFFF : Operand).toNat + (0xFFFF : Operand).toNat := by decide

theorem witness_RejectedCommandIsTheIdentity :
    (∃ t, exec (.setbit 8 true) (at1 .msf 0xBC) = .next t ∧ t.rsp ≠ some .ok) ∧
      ∃ t, runCommand 0x2100000000#40 0 (at1 .msf 0xBC) = .next t ∧ t.rsp ≠ some .ok :=
  ⟨⟨_, rfl, by decide⟩, ⟨_, rfl, by decide⟩⟩

theorem witness_StepRunsTheDecodedCommand :
    (at1 .msf 0).initDone = true ∧
      decode 0x7000040000#40 (0xFB % 2 ^ (at1 .msf 0).len) = .ok (.shift 4 0xB) ∧
      decode 0x2100000000#40 (0 % 2 ^ (at1 .msf 0).len) = .error .unusedField := by decide

theorem witness_FetchWordIsRunNext : decodeTableWord 40 0x9100000000 = some (.shiftonebit true) := by decide

theorem witness_InitRunsAfterReset :
    (atReset1 0xA5 0x3C [.command 0x3100000000#40 0]).WF ∧ (atReset1 0xA5 0x3C [.command 0x3100000000#40 0]).AtReset ∧
      (∀ x ∈ (atReset1 0xA5 0x3C []).host.head?, ∃ h p, x = .command h p) ∧
      (atReset1 0xA5 0x3C [.command 0x3100000000#40 0]).host.head? = some (.command 0x3100000000#40 0) :=
  ⟨by decide, by decide, by simp [atReset1], rfl⟩

/-- A reset after any number of the events of CLEAR, before and after its latch pulse. -/
theorem witness_ResetAbandonsTheStep :
    (at1 .msf 0xA5).WF ∧ (at1 .msf 0xA5).Ready ∧
      ∃ u, runCommand 0x1000000000#40 0 (at1 .msf 0xA5) = .next u ∧
        (⟨.latch, true⟩ : PinEvent) ∉ (newEvents (at1 .msf 0xA5) u).take 2 ∧
        (⟨.latch, true⟩ : PinEvent) ∈ (newEvents (at1 .msf 0xA5) u).take 3 :=
  ⟨by decide, by decide, _, rfl, by decide, by decide⟩

theorem witness_DisturbanceChangesTheChainOnly :
    ({ at1 .msf 0xA5 with host := [.disturbance] } : State).WF ∧
      { at1 .msf 0xA5 with host := [.disturbance] }.host = .disturbance :: [] := by decide

theorem witness_CommandWaitsForInit :
    (atReset1 0 0 [.command 0x3100000000#40 0]).initDone = false ∧
      (atReset1 0 0 [.command 0x3100000000#40 0]).host = [.command 0x3100000000#40 0] := by decide

theorem witness_IdleBlockWaits : (at1 .msf 0).initDone = true ∧ (at1 .msf 0).host = [] := by decide

/-- The invariant in a state before INIT, with a step from it. -/
theorem witness_StepKeepsTheInvariant_before :
    Inv (atReset1 0xA5 0x3C []) ∧ ∃ t, step (atReset1 0xA5 0x3C []) = .next t :=
  ⟨⟨by decide, fun _ => (by decide), fun h => (by cases h), by decide, .inl rfl⟩, ⟨_, rfl⟩⟩

/-- And in a state after INIT and a SHIFTONEBIT, with a reset inside a REFRESH next. -/
def afterBit : State :=
  { mk one .msf 1 1 0 with
    lvl := ⟨true, false, false, true⟩
    trace := initEvents ++ bitEvents [true]
    host := [.resetAfter 1, .command 0x2000000000#40 0] }

theorem witness_StepKeepsTheInvariant_after : Inv afterBit ∧ ∃ t, step afterBit = .next t :=
  ⟨⟨by decide, fun h => (by cases h), fun _ => (by decide), by decide, .inr ⟨[.reset, .latch, .bit true], by decide⟩⟩,
    ⟨_, rfl⟩⟩

theorem witness_LengthIsConstant : (at2 .msf 0).WF ∧ ∃ t, step (at2 .msf 0) = .next t := ⟨by decide, _, rfl⟩

theorem witness_ChainIsNeverRead : ∃ t, step afterBit = .next t := ⟨_, rfl⟩

/-- An accepted command with each premise of the frame's clauses. -/
theorem witness_CommandsWriteOnlyTheirState :
    (at1 .msf 0xA5).WF ∧ (at1 .msf 0xA5).Ready ∧ (∃ t, exec .refresh (at1 .msf 0xA5) = .next t) ∧
      (∃ t, exec (.setorder .lsf) (at1 .msf 0xA5) = .next t) ∧ (∃ t, exec (.shift 0 0) (at1 .msf 0xA5) = .next t) ∧
      (∃ t, exec (.shiftstate 0 true) (at1 .msf 0xA5) = .next t) ∧
      ∃ t, exec (.shiftonebit true) (at1 .msf 0xA5) = .next t :=
  ⟨by decide, by decide, ⟨_, rfl⟩, ⟨_, rfl⟩, ⟨_, rfl⟩, ⟨_, rfl⟩, ⟨_, rfl⟩⟩

theorem witness_LevelsAreIdleBetweenSteps :
    (at1 .msf 0xA5).WF ∧ (at1 .msf 0xA5).Ready ∧ (∃ t, exec .clear (at1 .msf 0xA5) = .next t) ∧
      (atReset1 0xA5 0x3C []).AtReset := ⟨by decide, by decide, ⟨_, rfl⟩, by decide⟩

/-- One accepted and one rejected command. -/
theorem witness_PinEventsOfEachStep :
    (at1 .msf 0xA5).WF ∧ (∃ t, exec (.shift 8 0x3C) (at1 .msf 0xA5) = .next t ∧ t.rsp = some .ok) ∧
      ∃ t, exec (.shift 9 0) (at1 .msf 0xA5) = .next t ∧ t.rsp ≠ some .ok :=
  ⟨by decide, ⟨_, rfl, rfl⟩, ⟨_, rfl, by decide⟩⟩

/-- Mirror, with a SET under MSF, a rejected SET under LSF, and a SHIFT under LSF. -/
theorem witness_MirrorIsPreserved :
    (at1 .lsf 0xA5).WF ∧ (at1 .lsf 0xA5).Ready ∧ (at1 .lsf 0xA5).Mirror ∧
      (∃ t, exec (.set 8 0xB4) (at1 .msf 0xA5) = .next t ∧ (at1 .msf 0xA5).order ≠ .lsf) ∧
      (∃ t, exec (.set 9 0) (at1 .lsf 0xA5) = .next t ∧ t.rsp ≠ some .ok) ∧
      (∃ t, exec (.shift 4 0xB) (at1 .lsf 0xA5) = .next t) ∧ ∀ n p, Instr.shift 4 0xB ≠ .set n p :=
  ⟨by decide, by decide, by decide, ⟨_, rfl, by decide⟩, ⟨_, rfl, by decide⟩, ⟨_, rfl⟩, fun _ _ => by simp⟩

/-- States in which Mirror fails, and each command that establishes it, accepted. -/
theorem witness_MirrorIsEstablished :
    (mk one .msf 0xB4 0x2D 0).WF ∧ (mk one .msf 0xB4 0x2D 0).Ready ∧ ¬ (mk one .msf 0xB4 0x2D 0).Mirror ∧
      (atReset1 0xA5 0x3C []).WF ∧ (atReset1 0xA5 0x3C []).AtReset ∧
      (∃ t, exec .clear (mk one .msf 0xB4 0x2D 0) = .next t ∧ t.rsp = some .ok) ∧
      (∃ t, exec (.setbit 7 true) (mk one .msf 0xB4 0x2D 0) = .next t ∧ t.rsp = some .ok) ∧
      (∃ t, exec (.setbits 8 0 true) (mk one .msf 0xB4 0x2D 0) = .next t ∧ t.rsp = some .ok) ∧
      (∃ t, exec (.set 8 0xB4) (mk one .msf 0xB4 0x2D 0) = .next t ∧ t.rsp = some .ok) ∧
      (∃ t, exec (.shift 8 0xB4) (mk one .msf 0xB4 0x2D 0) = .next t ∧ t.rsp = some .ok) ∧
      ∃ t, exec (.shiftstate 8 true) (mk one .msf 0xB4 0x2D 0) = .next t ∧ t.rsp = some .ok :=
  ⟨by decide, by decide, by decide, by decide, by decide, ⟨_, rfl, rfl⟩, ⟨_, rfl, rfl⟩, ⟨_, rfl, rfl⟩, ⟨_, rfl, rfl⟩,
    ⟨_, rfl, rfl⟩, ⟨_, rfl, rfl⟩⟩

theorem witness_SetUnderLsfReversesTheChain_set :
    (at1 .lsf 0).WF ∧ (at1 .lsf 0).Ready ∧ (at1 .lsf 0).order = .lsf ∧ (8 : Operand).toNat = (at1 .lsf 0).len := by decide
theorem witness_SetUnderLsfReversesTheChain_others :
    (mk one .lsf 0xB4 0x2D 0x2D).WF ∧ (mk one .lsf 0xB4 0x2D 0x2D).Ready ∧ ¬ (mk one .lsf 0xB4 0x2D 0x2D).Mirror ∧
      (∃ t, exec .refresh (mk one .lsf 0xB4 0x2D 0x2D) = .next t) ∧
      (∃ t, exec (.setorder .msf) (mk one .lsf 0xB4 0x2D 0x2D) = .next t) ∧
      (∃ t, exec (.shiftstate 3 false) (mk one .lsf 0xB4 0x2D 0x2D) = .next t ∧ t.rsp = some .ok) ∧
      (∃ t, exec (.shift 8 1) (mk one .lsf 0xB4 0x2D 0x2D) = .next t ∧ t.rsp = some .ok) ∧
      ∃ t, exec (.shiftonebit true) (mk one .lsf 0xB4 0x2D 0x2D) = .next t ∧ t.rsp = some .ok :=
  ⟨by decide, by decide, by decide, ⟨_, rfl⟩, ⟨_, rfl⟩, ⟨_, rfl, rfl⟩, ⟨_, rfl, rfl⟩, ⟨_, rfl, rfl⟩⟩

/-- An accepted command that latches, a rejected one, SETORDER, and a SHIFTONEBIT after which Visible holds by
coincidence (V54). -/
theorem witness_OutputsFollowTheLatch :
    (at1 .msf 0).WF ∧ (at1 .msf 0).Ready ∧ (atReset1 0xA5 0x3C []).AtReset ∧ (atReset1 0xA5 0x3C []).WF ∧
      (∃ t, exec (.shift 3 5) (at1 .msf 0) = .next t ∧ t.rsp = some .ok) ∧
      (∃ t, exec (.shift 9 5) (at1 .msf 0) = .next t ∧ t.rsp ≠ some .ok) ∧
      (∃ t, exec (.setorder .lsf) (at1 .msf 0) = .next t) ∧
      (∃ t, exec (.shiftonebit false) (at1 .msf 0) = .next t) ∧
      (at1 .msf 0).chain.out = false :: (at1 .msf 0).chain.stage.take ((at1 .msf 0).len - 1) :=
  ⟨by decide, by decide, by decide, by decide, ⟨_, rfl, rfl⟩, ⟨_, rfl, by decide⟩, ⟨_, rfl⟩, ⟨_, rfl⟩, by decide⟩

theorem witness_OutputsNeverShowAnIntermediatePattern :
    (mk one .msf 0xA5 0x2D 0x3C).WF ∧ (mk one .msf 0xA5 0x2D 0x3C).Ready ∧
      ∃ t, exec (.shift 4 0xB) (mk one .msf 0xA5 0x2D 0x3C) = .next t := ⟨by decide, by decide, _, rfl⟩

theorem witness_FullShiftRoundTrip : (at1 .lsf 0xA5).WF ∧ (8 : Operand).toNat = (at1 .lsf 0xA5).len := by decide

/-- No bit, and `L` bits. -/
theorem witness_SingleBitShiftsComposeToShift :
    (at1 .msf 0xA5).WF ∧ (at1 .msf 0xA5).order = .msf ∧ (bitsOfNat 8 0x3C).length ≤ (at1 .msf 0xA5).len ∧
      ([] : Bits).length ≤ (at1 .msf 0xA5).len := by decide

/-! The statements whose only premise is the form of the state, or that the block is ready. -/

theorem witness_StepNeverStops : (at2 .lsf 0x1E07).WF := by decide
theorem witness_FreeValuesNeverSurvive : (at2 .lsf 0x1E07).WF := by decide
theorem witness_ResponseIsNeverRead : (at2 .lsf 0x1E07).WF := by decide
theorem witness_RefreshIsIdempotent : (mk two .lsf 0x1E07 0x00BD 0).Ready := by decide

/-- The ways a reset comes: between steps, in a waiting step, inside a command, inside INIT on either side of its latch pulse,
with the power. -/
theorem witness_ResetAbandonsTheStep_hosts :
    { at1 .msf 0 with host := [.reset] }.host = .reset :: [] ∧
      { at1 .msf 0 with host := [.powerCycle] }.host = .powerCycle :: [] ∧
      { at1 .msf 0 with host := [.resetAfter 3, .command 0x1000000000#40 0] }.host =
        .resetAfter 3 :: .command 0x1000000000#40 0 :: [] := by decide
theorem witness_ResetAbandonsTheStep_waiting :
    ({ at1 .msf 0 with host := [.resetAfter 0, .reset] } : State).Ready ∧
      { at1 .msf 0 with host := [.resetAfter 0, .reset] }.host = .resetAfter 0 :: [.reset] ∧
      ∀ x ∈ [HostInput.reset].head?, ∀ h p, x ≠ .command h p :=
  ⟨by decide, by decide, by simp⟩
theorem witness_ResetAbandonsTheStep_init :
    (atReset1 0xA5 0x3C [.resetAfter 3]).WF ∧ (atReset1 0xA5 0x3C [.resetAfter 3]).AtReset ∧
      (atReset1 0xA5 0x3C [.resetAfter 3]).host = .resetAfter 3 :: [] ∧ 3 < 4 ∧ ¬ 4 < 4 := by decide

/-- A ready block, driven and undriven lines, a line that is set and one that is not, the highest bit of the buffer. -/
theorem witness_PortsShowTheState :
    (at1 .lsf 0xA5).Ready ∧ (at1 .lsf 0xA5).WF ∧ 7 < (at1 .lsf 0xA5).len ∧ (at1 .lsf 0xA5).oe = true ∧
      (atReset1 0 0 []).oe = false ∧ Pin.data ≠ Pin.latch := by decide

end Sys2Proof.Tests
end

section
/-! PROOFS. The pulses on the chain (rules R56 to R58): what a clock edge does to each stage, and statement O7. -/

namespace Sys2Proof.Machine

/-! ### One clock edge, stage by stage (rule R56) -/

theorem shiftIn_getElem?_zero {b : Bool} {stage : Bits} (h : 0 < stage.length) : (shiftIn b stage)[0]? = some b := by
  rw [shiftIn, List.getElem?_take_of_lt h, List.getElem?_cons_zero]

theorem shiftIn_getElem?_succ {b : Bool} {stage : Bits} {k : Nat} (h : k + 1 < stage.length) :
    (shiftIn b stage)[k + 1]? = stage[k]? := by
  rw [shiftIn, List.getElem?_take_of_lt h, List.getElem?_cons_succ]

/-! ### The statement -/

/-- Settles O7: each pulse's law on driven, idle lines, and the stages of `shiftIn` one by one. -/
theorem pulsesActOnTheChain : Obligations.PulsesActOnTheChain := by
  intro s b hwf ho
  obtain ⟨-, hstage, -⟩ := hwf
  have hpos : 0 < s.chain.stage.length := by
    rw [hstage]
    exact Nat.lt_of_lt_of_le (by decide) (len_bounds s).1
  refine ⟨fun hr hc => ?_, fun hl => ?_, ?_⟩
  · rw [transmit_idle b s ho hc hr]
    refine ⟨shiftIn_getElem?_zero hpos, fun k hk hkl => ?_, ?_, rfl⟩
    · obtain ⟨j, rfl⟩ := Nat.exists_eq_add_of_le' hk
      exact shiftIn_getElem?_succ (by rwa [hstage])
    · rw [shiftIn_length, hstage]
  · rw [pulseLatch_idle s ho hl]
    exact ⟨rfl, rfl⟩
  · rw [pulseReset_driven s ho, hstage]
    exact ⟨rfl, rfl⟩

end Sys2Proof.Machine
end

section
/-! PROOFS. Which headers are illegal (rule R78): the headers a row of the table selects, the headers that decode, and
statement O3. -/

namespace Sys2Proof

/-! ### The row a header selects, field by field (rules R74, R77) -/

/-- Headers that agree on a field agree on each of its bits. -/
theorem getLsbD_eq_of_field_eq {h g : Header} {lo n : Nat} (he : h.extractLsb' lo n = g.extractLsb' lo n) {i : Nat}
    (hlo : lo ≤ i) (hi : i < lo + n) : h.getLsbD i = g.getLsbD i := by
  have hbit := congrArg (fun v => v.getLsbD (i - lo)) he
  simpa [show i - lo < n by omega, show lo + (i - lo) = i by omega] using hbit

/-- The five fields are the whole header. -/
theorem header_eq_iff {h g : Header} :
    h = g ↔ opField h = opField g ∧ rsvField h = rsvField g ∧ flagField h = flagField g ∧
      aField h = aField g ∧ bField h = bField g := by
  refine ⟨by rintro rfl; exact ⟨rfl, rfl, rfl, rfl, rfl⟩, fun ⟨hop, hrsv, hf, ha, hb⟩ => ?_⟩
  apply BitVec.eq_of_getLsbD_eq
  intro i hi
  rcases show i < 16 ∨ (16 ≤ i ∧ i < 32) ∨ i = 32 ∨ (33 ≤ i ∧ i < 36) ∨ (36 ≤ i ∧ i < 40) by omega with
    h0 | ⟨h0, h1⟩ | rfl | ⟨h0, h1⟩ | ⟨h0, h1⟩
  · exact getLsbD_eq_of_field_eq hb (by omega) (by omega)
  · exact getLsbD_eq_of_field_eq ha h0 h1
  · exact hf
  · exact getLsbD_eq_of_field_eq hrsv h0 h1
  · exact getLsbD_eq_of_field_eq hop h0 h1

/-- A row selects a header when each field, under the row's mask, is the field of the row's pattern (rule R77). -/
theorem Row.selects_iff {r : Row} {h : Header} :
    r.Selects h ↔ opField h &&& opField r.mask = opField r.pattern ∧ rsvField h &&& rsvField r.mask = rsvField r.pattern ∧
      (flagField h && flagField r.mask) = flagField r.pattern ∧ aField h &&& aField r.mask = aField r.pattern ∧
      bField h &&& bField r.mask = bField r.pattern := by
  rw [Row.Selects, header_eq_iff]
  simp [opField, rsvField, flagField, aField, bField, BitVec.extractLsb'_and]

/-- The table of rule R77 field by field: a row's mask covers `op` and `rsv`, and of `f`, `a` and `b` just those that rule R78
wants to be zero for its opcode; its pattern is zero outside `op`. -/
theorem opcodeRows_fields {r : Row} (hr : r ∈ opcodeRows) :
    (opField r.mask = BitVec.allOnes 4 ∧ rsvField r.mask = BitVec.allOnes 3 ∧
      flagField r.mask = decide (opField r.pattern ∈ [1#4, 2#4, 4#4, 7#4]) ∧
      aField r.mask = (if opField r.pattern ∈ [1#4, 2#4, 3#4, 9#4] then BitVec.allOnes 16 else 0#16) ∧
      bField r.mask = (if opField r.pattern ≠ 6#4 then BitVec.allOnes 16 else 0#16)) ∧
    rsvField r.pattern = 0#3 ∧ flagField r.pattern = false ∧ aField r.pattern = 0#16 ∧ bField r.pattern = 0#16 := by
  revert r
  decide

/-- The opcodes that have a row are 0x1 to 0x9 (rule R77). -/
theorem exists_opcodeRow_iff (op : BitVec 4) :
    (∃ r ∈ opcodeRows, op = opField r.pattern) ↔ ¬ (op = 0#4 ∨ 0xA#4 ≤ op) := by
  revert op
  decide

end Sys2Proof

namespace Sys2Proof.Machine

/-- The conditions of rule R78 on the fields other than the opcode. -/
def BadOperandFields (h : Header) : Prop :=
  rsvField h ≠ 0#3 ∨
    (flagField h = true ∧ opField h ∈ [1#4, 2#4, 4#4, 7#4]) ∨
    (aField h ≠ 0#16 ∧ opField h ∈ [1#4, 2#4, 3#4, 9#4]) ∨
    (bField h ≠ 0#16 ∧ opField h ≠ 6#4)

theorem illegalFields_iff (h : Header) :
    IllegalFields h ↔ (opField h = 0#4 ∨ 0xA#4 ≤ opField h) ∨ BadOperandFields h := Iff.rfl

/-- A field under a mask of ones is zero when the field is; under a mask of zeros it always is. -/
theorem and_allOnes_or_zero_eq_zero_iff {w : Nat} {x : BitVec w} {p : Prop} [Decidable p] :
    (x &&& if p then BitVec.allOnes w else 0#w) = 0#w ↔ ¬ (x ≠ 0#w ∧ p) := by
  by_cases hp : p <;> simp [hp]

/-- A row of the table selects the headers with its opcode whose other fields are in order (rules R77, R78). -/
theorem selects_iff_of_mem {r : Row} (hr : r ∈ opcodeRows) (h : Header) :
    r.Selects h ↔ opField h = opField r.pattern ∧ ¬ BadOperandFields h := by
  obtain ⟨⟨hmop, hmrsv, hmf, hma, hmb⟩, hrsv, hf, ha, hb⟩ := opcodeRows_fields hr
  rw [Row.selects_iff, hmop, hmrsv, hmf, hma, hmb, hrsv, hf, ha, hb, BitVec.and_allOnes, BitVec.and_allOnes,
    and_allOnes_or_zero_eq_zero_iff, and_allOnes_or_zero_eq_zero_iff]
  refine and_congr_right fun hop => ?_
  rw [← hop, BadOperandFields]
  simp only [not_or, not_and, not_ne_iff, Bool.and_eq_false_imp, decide_eq_false_iff_not]

/-- Rule R78's "Equivalently": the field conditions hold exactly for the headers that no row selects. -/
theorem illegalFields_iff_no_row (h : Header) : IllegalFields h ↔ ¬ ∃ r ∈ opcodeRows, r.Selects h := by
  have hrow : (∃ r ∈ opcodeRows, r.Selects h) ↔
      (∃ r ∈ opcodeRows, opField h = opField r.pattern) ∧ ¬ BadOperandFields h := by
    rw [← exists_and_right]
    exact exists_congr fun r => by rw [and_assoc, and_congr_right fun hr => selects_iff_of_mem hr h]
  rw [illegalFields_iff, hrow, exists_opcodeRow_iff, ← not_or, not_not]

/-! ### The decoder on legal and illegal headers (rule R78) -/

theorem exists_checkFields_eq_ok_iff {h : Header} {zero : Bool} {i : Instr} :
    (∃ j, checkFields h zero i = .ok j) ↔ rsvField h = 0#3 ∧ zero = true := by
  by_cases hr : rsvField h = 0#3 <;> cases zero <;> simp [checkFields, hr]

/-- The decoder gives a command exactly for the headers that the field conditions allow, whatever the bus. -/
theorem exists_decode_eq_ok_iff (h : Header) (bus : Nat) : (∃ i, decode h bus = .ok i) ↔ ¬ IllegalFields h := by
  unfold decode
  dsimp only
  split
  case h_10 =>
    have hop : opField h = 0#4 ∨ 0xA#4 ≤ opField h := by
      simp only [imp_false] at *
      bv_omega
    simp only [reduceCtorEq, exists_false, false_iff, not_not]
    exact .inl hop
  all_goals
    next hop =>
    rw [exists_checkFields_eq_ok_iff]
    simp [IllegalFields, ← BitVec.toNat_inj, BitVec.le_def, hop, and_assoc]

/-! ### The statement -/

/-- Settles O3: both the table and the decoder leave out exactly the headers of the field conditions. -/
theorem illegalHeadersAreRejected : Obligations.IllegalHeadersAreRejected := by
  refine ⟨illegalFields_iff_no_row, fun h pat s hill => ⟨?_, rfl⟩,
    fun h bus => (exists_decode_eq_ok_iff h bus).mpr, by decide⟩
  unfold runCommand
  split
  · next i hok => exact absurd hill ((exists_decode_eq_ok_iff h _).mp ⟨i, hok⟩)
  · rfl

end Sys2Proof.Machine
end

section
/-! PROOFS. The BitBuffer primitives and the serialiser (rules R90, R91, R93, R96 to R99): what each does bit by bit, and
statements O10, O12, O13, O8 and O9. -/

namespace Sys2Proof.Machine

/-! ### ShiftForward, bit by bit (rules R93, R99) -/

theorem undefBits_getElem? {draws n i : Nat} (h : i < n) :
    (Config.undefBits draws n)[i]? = some (Config.undefBit (draws + i)) := by
  simp [Config.undefBits, h]

theorem shiftedBuf_getElem?_vacated {new buf : Bits} {count len i : Nat} (hn : new.length = count) (h : i < count) :
    (shiftedBuf new count len buf)[i]? = new[i]? :=
  List.getElem?_append_left (hn.symm ▸ h)

theorem shiftedBuf_getElem?_moved {new buf : Bits} {count len i : Nat} (hn : new.length = count) (h : count ≤ i)
    (hi : i < len) : (shiftedBuf new count len buf)[i]? = buf[i - count]? := by
  rw [shiftedBuf, List.getElem?_append_right (hn.symm ▸ h), hn, List.getElem?_take_of_lt (by omega)]

theorem shiftForward_fault {count : Nat} {s : State} (h : s.len < count) :
    shiftForward count s = .fault (.shiftForwardCount count) :=
  if_neg (Nat.not_le.mpr h)

/-- Settles O10: the vacated bits of `shiftedBuf` are the free values drawn, the others the old ones moved up. -/
theorem shiftForwardMovesBits : Obligations.ShiftForwardMovesBits := by
  intro s count hwf
  obtain ⟨hbuf, -, -⟩ := hwf
  have hnew : (Config.undefBits s.draws count).length = count := undefBits_length _ _
  refine ⟨fun hc => ⟨_, shiftForward_next hc, rfl, shiftedBuf_length hnew hbuf hc, ?_, ?_⟩, shiftForward_fault⟩
  · exact fun i hci hi => shiftedBuf_getElem?_moved hnew hci hi
  · exact fun i hi => (shiftedBuf_getElem?_vacated hnew hi).trans (undefBits_getElem? hi)

/-! ### A run of Transmits, stage by stage (rule R98) -/

/-- A stage within the run holds the bit sent that many places before the last one, however long the run. -/
theorem sentStages_getElem?_sent {bits stage : Bits} {k : Nat} (hk : k < stage.length) (h : k < bits.length) :
    (sentStages bits stage)[k]? = bits[bits.length - 1 - k]? := by
  rw [sentStages, List.getElem?_take_of_lt hk, List.getElem?_append_left (by rwa [List.length_reverse]),
    List.getElem?_reverse h]

/-- A stage beyond the run holds the old stage that many places below. -/
theorem sentStages_getElem?_moved {bits stage : Bits} {k : Nat} (hk : k < stage.length) (h : bits.length ≤ k) :
    (sentStages bits stage)[k]? = stage[k - bits.length]? := by
  rw [sentStages, List.getElem?_take_of_lt hk, List.getElem?_append_right (by rwa [List.length_reverse]),
    List.length_reverse]

/-- Sending bits from a ready state changes the data level, the stages and the trace, and nothing else. -/
theorem sendBits_ready {s : State} (bits : Bits) (h : s.Ready) :
    sendBits bits s =
      { s with
        lvl := { s.lvl with data := lastSent bits s.lvl.data }
        chain := { stage := sentStages bits s.chain.stage, out := s.chain.out }
        trace := s.trace ++ bitEvents bits } := by
  obtain ⟨-, ho, hc, -, hr⟩ := h
  simp only [sendBits_idle bits s ho hc hr, hc]

/-- Settles O13: the stages are `sentStages`, of which a run up to `L` fills a part and a longer one all. -/
theorem runOfTransmissionsFillsTheStages : Obligations.RunOfTransmissionsFillsTheStages := by
  intro s bits hwf hready
  obtain ⟨-, hstage, -⟩ := hwf
  rw [← sendBits_eq_replay, sendBits_ready bits hready, ← hstage]
  refine ⟨fun hm => ⟨fun j hj => ?_, fun k hmk hk => sentStages_getElem?_moved hk hmk⟩, fun hm j hj => ?_,
    sentStages_length _ _⟩
  · rw [sentStages_getElem?_sent (by omega) (by omega)]
    congr 1
    omega
  · rw [sentStages_getElem?_sent (by omega) (by omega)]
    congr 1
    omega

/-! ### RetransmitAll (rule R97) -/

/-- The last bit sent of a whole buffer, highest index first, is bit 0. -/
theorem lastSent_reverse {buf : Bits} (level : Bool) (h : buf ≠ []) : lastSent buf.reverse level = buf.getD 0 false := by
  obtain ⟨b, bs, rfl⟩ := List.exists_cons_of_ne_nil h
  simp [lastSent]

/-- Settles O12: RetransmitAll sends the reversed buffer, and exactly `L` bits leave nothing of the old stages. -/
theorem retransmitAllSendsTheBuffer : Obligations.RetransmitAllSendsTheBuffer := by
  intro s hwf hready
  obtain ⟨hbuf, hstage, -⟩ := hwf
  have hne : s.buf ≠ [] := by
    have := (len_bounds s).1
    exact List.ne_nil_of_length_pos (by omega)
  have hlen : s.buf.reverse.length = s.chain.stage.length := by rw [List.length_reverse, hbuf, hstage]
  refine ⟨by rw [bitEvents_length, List.length_reverse, hbuf], ?_⟩
  rw [retransmitAll_next hbuf, sendBits_ready _ hready, lastSent_reverse _ hne, sentStages_of_eq hlen,
    List.reverse_reverse]

/-! ### The traversal order (rule R96) -/

/-- Settles O8: both orders at once from the model's law of `seq`. -/
theorem traversalOrderIsSeq : Obligations.TraversalOrderIsSeq := by
  intro n
  exact ⟨seq_length .msf n, seq_length .lsf n, fun j hj => ⟨seq_getElem? (o := .msf) hj, seq_getElem? (o := .lsf) hj⟩⟩

/-! ### BB.read and BB.write (rules R90, R91, R99) -/

theorem bbRead_error {i : Nat} {s : State} (h : s.len ≤ i) : bbRead i s = .error (.bitBufferIndex i) :=
  if_neg (Nat.not_lt.mpr h)

theorem bbWrite_fault {i : Nat} {s : State} (v : Bool) (h : s.len ≤ i) : bbWrite i v s = .fault (.bitBufferIndex i) :=
  if_neg (Nat.not_lt.mpr h)

/-- A read after a write at the same index gives the bit written. -/
theorem bbRead_set_same {i : Nat} {s : State} (v : Bool) (h : i < s.len) (hb : s.buf.length = s.len) :
    bbRead i (setBuf (s.buf.set i v) s) = .ok v := by
  have hi : i < (setBuf (s.buf.set i v) s).len := h
  rw [bbRead_ok hi, setBuf_buf, List.getD_eq_getElem?_getD, List.getElem?_set_self (hb.symm ▸ h), Option.getD_some]

/-- A read at another index does not see the write, in the buffer or out of it. -/
theorem bbRead_set_ne {i k : Nat} {s : State} (v : Bool) (h : k ≠ i) :
    bbRead k (setBuf (s.buf.set i v) s) = bbRead k s := by
  rw [bbRead, bbRead, setBuf_len, setBuf_buf, List.getD_eq_getElem?_getD, List.getElem?_set_ne h.symm,
    ← List.getD_eq_getElem?_getD]

/-- Settles O9: a read is the buffer's bit, and a write is seen by reads at its own index only. -/
theorem bufferPrimitivesReadAndWrite : Obligations.BufferPrimitivesReadAndWrite := by
  intro s i v hwf
  obtain ⟨hbuf, -, -⟩ := hwf
  refine ⟨fun hi => ⟨⟨_, ?_, bbRead_ok hi⟩, _, bbWrite_next v hi, rfl, bbRead_set_same v hi hbuf,
    fun k hk => bbRead_set_ne v hk⟩, fun hi => ⟨bbRead_error hi, bbWrite_fault v hi⟩⟩
  have hlt : i < s.buf.length := hbuf.symm ▸ hi
  rw [List.getD_eq_getElem _ _ hlt, List.getElem?_eq_getElem hlt]

end Sys2Proof.Machine
end

section
/-! PROOFS. The idle levels (rule R116): what each pulse primitive leaves on the lines, that a command keeps them idle, and
statement O43. -/

namespace Sys2Proof.Machine

/-! ### The lines after one pulse (rules R95, R110, R111) -/

@[simp] theorem transmit_lvl (b : Bool) (s : State) : (transmit b s).lvl = { s.lvl with data := b, clock := false } := rfl

@[simp] theorem pulseLatch_lvl (s : State) : (pulseLatch s).lvl = { s.lvl with latch := false } := rfl

@[simp] theorem pulseReset_lvl (s : State) : (pulseReset s).lvl = { s.lvl with reset := true } := rfl

/-! ### The lines after a command -/

/-- A command on idle lines leaves them idle: a rejected one emits nothing, an accepted one emits whole pulses. -/
theorem exec_idle {i : Instr} {s t : State} (hw : s.WF)
    (hidle : s.lvl.clock = false ∧ s.lvl.latch = false ∧ s.lvl.reset = true) (h : exec i s = .next t) :
    t.lvl.clock = false ∧ t.lvl.latch = false ∧ t.lvl.reset = true := by
  obtain ⟨-, rfl⟩ | ⟨-, rfl⟩ := exec_cases hw h
  · rw [respond_lvl, afterPulses_eq]
    exact pulses_idle (commandPulses i s) hidle
  · exact hidle

/-- INIT leaves the latch and reset lines idle, and the clock line as low as hardware reset had it (rules R30, R112). -/
theorem initBlock_idle {s : State} (hreset : s.lvl = Levels.allLow) :
    (initBlock s).lvl.clock = false ∧ (initBlock s).lvl.latch = false ∧ (initBlock s).lvl.reset = true := by
  rw [initBlock_lvl, hreset]
  exact ⟨rfl, rfl, rfl⟩

/-! ### The statement -/

/-- Settles O43: commands keep the idle levels, INIT sets them from the reset levels, and the law of each pulse primitive. -/
theorem levelsAreIdleBetweenSteps : Obligations.LevelsAreIdleBetweenSteps := by
  refine ⟨fun i s t hwf hready hexec => ?_, fun s hreset => ?_, fun s b => ?_⟩
  · obtain ⟨-, -, hidle⟩ := hready
    exact exec_idle hwf hidle hexec
  · obtain ⟨-, -, hlow, -⟩ := hreset
    exact initBlock_idle hlow
  · exact ⟨transmit_lvl b s, pulseLatch_lvl s, pulseReset_lvl s⟩

end Sys2Proof.Machine
end

section
/-! PROOFS. The shift-in commands between ready states (rules R150 to R154): the whole state after the run of bits, and
statement O20. -/

namespace Sys2Proof.Machine

/-- A shift command up to its latch pulse, from a ready state: `low` enters the buffer, the bits sent enter the stages in
reverse, the old bits of both move up; nothing is latched yet. -/
theorem shiftedState_ready {s : State} {bits : Bits} {count : Nat} (low : Bits) (hwf : s.WF) (hready : s.Ready)
    (hbits : bits.length = count) (hcount : count ≤ s.len) :
    shiftedState bits low count s =
      { s with
        buf := low ++ s.buf.take (s.len - count)
        lvl := { s.lvl with data := lastSent bits s.lvl.data }
        chain := { stage := bits.reverse ++ s.chain.stage.take (s.len - count), out := s.chain.out }
        trace := s.trace ++ bitEvents bits
        draws := s.draws + count } := by
  obtain ⟨-, hstage, -⟩ := hwf
  have hsent : sentStages bits s.chain.stage = bits.reverse ++ s.chain.stage.take (s.len - count) := by
    rw [sentStages_of_le (by omega), hstage, hbits]
  have hdrawn : State.Ready { s with draws := s.draws + count } := hready
  rw [shiftedState, sendBits_ready bits hdrawn, ← hsent]
  rfl

/-- Settles O20: the bits SHIFT sends are, in reverse, the ones it stores, and the latch pulse shows the stages. -/
theorem shiftInsertsThePattern : Obligations.ShiftInsertsThePattern := by
  intro s n pat hwf hready hn
  have hlen : (patternBits s.order n.toNat pat).length = n.toNat := patternBits_length _ _ _
  have hshift := shiftedState_ready (shiftedInBits s.order n.toNat pat) hwf hready hlen hn
  obtain ⟨-, hoe, -, hlatch, -⟩ := hready
  rw [exec, execShift_eq, if_pos hn, hshift, reverse_patternBits, pulseLatch_idle]
  · simp only [hlatch, respond]
  · exact hoe
  · exact hlatch

end Sys2Proof.Machine
end

section
/-! PROOFS. A command's outcome field by field: its form, order and buffer, the chain between ready states, and that no free
value is left in it (rules R31, R170, R171, R173): statements O45 and O39. -/

namespace Sys2Proof.Machine

/-! ### The outcome of an accepted command -/

theorem exec_of_ok {i : Instr} {s : State} (hb : s.buf.length = s.len) (hk : commandStatus i s = .ok) :
    exec i s = .next (respond .ok
      (afterPulses (commandPulses i s) (commandBuf i s) (commandOrder i s) (s.draws + commandDraws i) s)) := by
  rw [exec_eq i s hb, if_pos hk]

theorem exec_of_not_ok {i : Instr} {s : State} (hb : s.buf.length = s.len) (hk : commandStatus i s ≠ .ok) :
    exec i s = .next (respond (commandStatus i s) s) := by
  rw [exec_eq i s hb, if_neg hk]

@[simp] theorem afterPulses_buf (ps : List Pulse) (b : Bits) (o : BitOrder) (d : Nat) (s : State) :
    (afterPulses ps b o d s).buf = b := by rw [afterPulses_eq]

@[simp] theorem afterPulses_order (ps : List Pulse) (b : Bits) (o : BitOrder) (d : Nat) (s : State) :
    (afterPulses ps b o d s).order = o := by rw [afterPulses_eq]

@[simp] theorem afterPulses_chain (ps : List Pulse) (b : Bits) (o : BitOrder) (d : Nat) (s : State) :
    (afterPulses ps b o d s).chain = chainAfter s.oe (pulseEvents ps) s.lvl s.chain := by rw [afterPulses_eq]

@[simp] theorem afterPulses_trace (ps : List Pulse) (b : Bits) (o : BitOrder) (d : Nat) (s : State) :
    (afterPulses ps b o d s).trace = s.trace ++ pulseEvents ps := by rw [afterPulses_eq]

@[simp] theorem afterPulses_chips (ps : List Pulse) (b : Bits) (o : BitOrder) (d : Nat) (s : State) :
    (afterPulses ps b o d s).chips = s.chips := by rw [afterPulses_eq]

/-- No command stops in a well-formed state (rules R99, R248). -/
theorem exec_next (i : Instr) {s : State} (hw : s.WF) : ∃ t, exec i s = .next t := by
  obtain ⟨hbuf, -, -⟩ := hw
  by_cases hk : commandStatus i s = .ok
  · exact ⟨_, exec_of_ok hbuf hk⟩
  · exact ⟨_, exec_of_not_ok hbuf hk⟩

/-- The buffer an accepted command leaves does not depend on the lines being driven or idle. -/
theorem exec_buf_of_ok {i : Instr} {s : State} (hw : s.WF) (hk : commandStatus i s = .ok) :
    ∃ t, exec i s = .next t ∧ t.buf = commandBuf i s := by
  obtain ⟨hbuf, -, -⟩ := hw
  exact ⟨_, exec_of_ok hbuf hk, by simp⟩

/-- A command keeps the form of the state: the chip count, and `L` bits in each of the three vectors (rule R170). -/
theorem exec_form {i : Instr} {s t : State} (hw : s.WF) (h : exec i s = .next t) : t.chips = s.chips ∧ t.WF := by
  obtain ⟨hk, rfl⟩ | ⟨-, rfl⟩ := exec_cases hw h
  · exact ⟨afterPulses_chips _ _ _ _ _, respond_wf .ok (afterPulses_wf hw (commandBuf_length hw.1 hk))⟩
  · exact ⟨rfl, respond_wf _ hw⟩

theorem commandOrder_of_ne_setorder {i : Instr} (s : State) (h : ∀ p, i ≠ .setorder p) : commandOrder i s = s.order := by
  cases i with
  | setorder p => exact absurd rfl (h p)
  | _ => rfl

/-- Only SETORDER writes the order (rule R31). -/
theorem exec_order {i : Instr} {s t : State} (hw : s.WF) (h : exec i s = .next t) (hi : ∀ p, i ≠ .setorder p) :
    t.order = s.order := by
  obtain ⟨-, rfl⟩ | ⟨-, rfl⟩ := exec_cases hw h
  · rw [respond_order, afterPulses_order, commandOrder_of_ne_setorder s hi]
  · rfl

/-- Between ready states a command answers OK and leaves the buffer and the chain of its row, or answers with an exception
and leaves both as they were. -/
theorem exec_ready_cases {i : Instr} {s t : State} (hw : s.WF) (hr : s.Ready) (h : exec i s = .next t) :
    (t.rsp = some .ok ∧ commandStatus i s = .ok ∧ t.buf = commandBuf i s ∧
      t.chain = ⟨commandStage i s, commandOut i s⟩) ∨
    (t.rsp ≠ some .ok ∧ commandStatus i s ≠ .ok ∧ t.buf = s.buf ∧ t.chain = s.chain) := by
  obtain ⟨hk, rfl⟩ | ⟨hk, rfl⟩ := exec_cases hw h
  · refine .inl ⟨rfl, hk, by simp, ?_⟩
    have hchain := chainAfter_command hw hr hk
    obtain ⟨-, hoe, -⟩ := hr
    rw [respond_chain, afterPulses_chain, hoe, hchain]
  · exact .inr ⟨by simpa using hk, hk, rfl, rfl⟩

/-! ### Mirror through a command (rule R173) -/

/-- An accepted command does to the stages what it does to the buffer, SET under LSF excepted. -/
theorem commandStage_eq_commandBuf {i : Instr} {s : State} (hm : s.Mirror) (hset : s.order = .lsf → ∀ n p, i ≠ .set n p) :
    commandStage i s = commandBuf i s := by
  have hstage : s.chain.stage = s.buf := hm
  cases i with
  | set n p =>
    cases ho : s.order with
    | msf => simp [commandStage, commandBuf, ho, shiftedInBits]
    | lsf => exact absurd rfl (hset ho n p)
  | clear | setbit | setbits => rfl
  | refresh | setorder | shift | shiftstate | shiftonebit => simp only [commandStage, commandBuf, hstage]

/-- Settles O45: a rejected command keeps buffer and stages, an accepted one does the same to both. -/
theorem mirrorIsPreserved : Obligations.MirrorIsPreserved := by
  intro i s t hwf hready hmirror hexec hset
  obtain ⟨hok, -, hbuf, hchain⟩ | ⟨-, -, hbuf, hchain⟩ := exec_ready_cases hwf hready hexec
  · rw [State.Mirror, hbuf, hchain]
    exact commandStage_eq_commandBuf hmirror (hset hok)
  · rw [State.Mirror, hbuf, hchain]
    exact hmirror

/-! ### No command's outcome depends on the free values (rule R171) -/

/-- Two runs that differ only in the free values to come differ only in their count. -/
theorem exec_with_draws {i : Instr} {s t : State} (d : Nat) (hw : s.WF) (h : exec i s = .next t) :
    exec i { s with draws := d } = .next { t with draws := d + (t.draws - s.draws) } := by
  obtain ⟨hk, rfl⟩ | ⟨hk, rfl⟩ := exec_cases hw h
  · rw [exec_of_ok (s := { s with draws := d }) hw.1 hk]
    simp only [afterPulses_eq, respond, Nat.add_sub_cancel_left]
    rfl
  · rw [exec_of_not_ok (s := { s with draws := d }) hw.1 hk]
    simp only [respond, Nat.sub_self, Nat.add_zero]
    rfl

/-- INIT draws no free value and reads none. -/
theorem initBlock_with_draws (s : State) (d : Nat) :
    initBlock { s with draws := d } = { initBlock s with draws := d } := rfl

/-- Settles O39: a command never stops, and neither it nor INIT reads a free value it has drawn. -/
theorem freeValuesNeverSurvive : Obligations.FreeValuesNeverSurvive := by
  refine ⟨fun i s d hwf => ?_, initBlock_with_draws⟩
  obtain ⟨t, ht⟩ := exec_next i hwf
  exact ⟨t, ht, exec_with_draws d hwf ht⟩

end Sys2Proof.Machine
end

section
/-! PROOFS. The buffer an accepted command leaves, bit by bit, and its dependence on BitOrder (rules R180, R182, R184):
statements O23, O24 and O51. -/

namespace Sys2Proof.Machine

/-! ### Bit writes (rule R180) -/

theorem runSet_getElem?_inside {idx cnt k : Nat} {v : Bool} {buf : Bits} (h : idx ≤ k ∧ k < idx + cnt)
    (hk : k < buf.length) : (runSet idx cnt v buf)[k]? = some v := by
  simp [runSet, h, hk]

theorem runSet_getElem?_outside {idx cnt k : Nat} {v : Bool} {buf : Bits} (h : k < idx ∨ idx + cnt ≤ k) :
    (runSet idx cnt v buf)[k]? = buf[k]? := by
  have hk : ¬ (idx ≤ k ∧ k < idx + cnt) := by omega
  simp [runSet, hk]

/-- Settles O23: `List.set` and `runSet`, one index at a time. -/
theorem bitWritesLeaveOtherBits : Obligations.BitWritesLeaveOtherBits := by
  refine ⟨fun s i v hwf hi => ?_, fun s idx cnt v hwf hrun => ?_⟩
  · obtain ⟨t, ht, hbuf⟩ := exec_buf_of_ok (i := .setbit i v) hwf (if_pos hi)
    obtain ⟨hlen, -, -⟩ := hwf
    rw [commandBuf] at hbuf
    refine ⟨t, ht, ?_, fun k hk => ?_⟩
    · rw [hbuf, List.getElem?_set_self (by omega)]
    · rw [hbuf, List.getElem?_set_ne hk.symm]
  · obtain ⟨t, ht, hbuf⟩ := exec_buf_of_ok (i := .setbits idx cnt v) hwf (if_pos hrun)
    obtain ⟨hlen, -, -⟩ := hwf
    rw [commandBuf] at hbuf
    refine ⟨t, ht, fun k hk hk' => ?_, fun k hk => ?_⟩
    · rw [hbuf, runSet_getElem?_inside ⟨hk, hk'⟩ (by omega)]
    · rw [hbuf, runSet_getElem?_outside hk]

/-! ### The bits a shift command leaves (rules R151, R182) -/

/-- The pattern's bit `i` under MSF, its bit `n - 1 - i` under LSF. -/
theorem shiftedInBits_getElem? {o : BitOrder} {n pat i : Nat} (h : i < n) :
    (shiftedInBits o n pat)[i]? =
      some (match o with | .msf => pat.testBit i | .lsf => pat.testBit (n - 1 - i)) := by
  cases o with
  | msf => rw [shiftedInBits, bitsOfNat_getElem?, if_pos h]
  | lsf =>
    rw [shiftedInBits, List.getElem?_reverse (by simpa using h), bitsOfNat_length, bitsOfNat_getElem?, if_pos (by omega)]

/-- Above the bits shifted in stand the old ones, moved up. -/
theorem append_take_getElem?_moved {low old : Bits} {len m k : Nat} (hm : low.length = m) (hmk : m ≤ k) (hk : k < len) :
    (low ++ old.take (len - m))[k]? = old[k - m]? := by
  rw [List.getElem?_append_right (by omega), hm, List.getElem?_take_of_lt (by omega)]

/-- SHIFT completes whenever its length fits, whatever the lines do, and leaves the buffer of rule R151. -/
theorem exec_shift_buf {s : State} {n : Operand} (pat : Nat) (hw : s.WF) (hn : n.toNat ≤ s.len) :
    ∃ t, exec (.shift n pat) s = .next t ∧
      t.buf = shiftedInBits s.order n.toNat pat ++ s.buf.take (s.len - n.toNat) :=
  exec_buf_of_ok (i := .shift n pat) hw (if_pos hn)

/-- A SHIFT of full length leaves nothing of the old buffer (rule R184). -/
theorem exec_full_shift_buf {s : State} {n : Operand} (pat : Nat) (hw : s.WF) (hn : n.toNat = s.len) :
    ∃ t, exec (.shift n pat) s = .next t ∧ t.buf = shiftedInBits s.order s.len pat := by
  obtain ⟨t, ht, hbuf⟩ := exec_shift_buf pat hw hn.le
  exact ⟨t, ht, by rw [hbuf, hn, Nat.sub_self, List.take_zero, List.append_nil]⟩

/-! ### The other commands do not read the order (rule R182) -/

theorem commandBuf_with_order {i : Instr} (s : State) (o : BitOrder) (h : ∀ n p, i ≠ .shift n p) :
    commandBuf i { s with order := o } = commandBuf i s := by
  cases i with
  | shift n p => exact absurd rfl (h n p)
  | _ => rfl

theorem commandPulses_with_order {i : Instr} (s : State) (o : BitOrder) (h : ∀ n p, i ≠ .set n p ∧ i ≠ .shift n p) :
    commandPulses i { s with order := o } = commandPulses i s := by
  cases i with
  | set n p => exact absurd rfl (h n p).1
  | shift n p => exact absurd rfl (h n p).2
  | _ => rfl

/-- A command other than SET, SHIFT and SETORDER does the same in both orders and keeps the order. -/
theorem exec_with_order {i : Instr} {s t : State} (o : BitOrder) (hw : s.WF) (h : exec i s = .next t)
    (hsend : ∀ n p, i ≠ .set n p ∧ i ≠ .shift n p) (horder : ∀ p, i ≠ .setorder p) :
    exec i { s with order := o } = .next { t with order := o } := by
  have hw' : State.WF { s with order := o } := hw
  obtain ⟨hk, rfl⟩ | ⟨hk, rfl⟩ := exec_cases hw h
  · rw [exec_of_ok hw'.1 hk, commandBuf_with_order s o fun n p => (hsend n p).2, commandPulses_with_order s o hsend,
      commandOrder_of_ne_setorder _ horder, afterPulses_eq, afterPulses_eq]
    rfl
  · rw [exec_of_not_ok hw'.1 hk]
    rfl

/-! ### The statements -/

/-- Settles O24: only SHIFT's buffer depends on the order; SET stores the pattern either way. -/
theorem bitOrderAffectsShiftAndWireOnly : Obligations.BitOrderAffectsShiftAndWireOnly := by
  refine ⟨fun s n pat hwf hn => ?_, fun s hwf => ?_, fun s n pat o hwf hn => ?_, fun i s t o hwf hexec hsend horder =>
    exec_with_order o hwf hexec hsend horder⟩
  · obtain ⟨t, ht, hbuf⟩ := exec_shift_buf pat hwf hn
    refine ⟨t, ht, fun i hi => ?_, fun i hni hi => ?_⟩
    · rw [hbuf, List.getElem?_append_left (by simpa using hi)]
      exact shiftedInBits_getElem? hi
    · rw [hbuf, append_take_getElem?_moved (shiftedInBits_length _ _ _) hni hi]
  · have h4 : (4 : Operand).toNat ≤ s.len := le_trans (by decide) (len_bounds s).1
    obtain ⟨t, ht, hbuf⟩ := exec_shift_buf 0b1011 hwf h4
    refine ⟨t, ht, ?_⟩
    have hlow : t.buf.take 4 = shiftedInBits s.order 4 0b1011 := by
      rw [hbuf]
      exact List.take_left' (shiftedInBits_length _ _ _)
    rw [hlow]
    cases s.order <;> rfl
  · have hwf' : State.WF { s with order := o } := hwf
    obtain ⟨t, ht, hbuf⟩ := exec_buf_of_ok (i := .set n pat) hwf (if_pos hn)
    obtain ⟨u, hu, hbuf'⟩ := exec_buf_of_ok (i := .set n pat) hwf' (if_pos hn)
    exact ⟨t, u, ht, hu, hbuf.trans hbuf'.symm⟩

/-- Settles O51: with or without the CLEAR before it, a SHIFT of full length leaves its own bits. -/
theorem fullShiftRoundTrip : Obligations.FullShiftRoundTrip := by
  intro s n pat hwf hn
  obtain ⟨t, ht⟩ := exec_next .clear hwf
  obtain ⟨hchips, hwf'⟩ := exec_form hwf ht
  have hlen : t.len = s.len := by rw [State.len, hchips, State.len]
  have horder : t.order = s.order := exec_order hwf ht (by simp)
  obtain ⟨u, hu, hbuf⟩ := exec_full_shift_buf pat hwf' (hn.trans hlen.symm)
  obtain ⟨v, hv, hbuf'⟩ := exec_full_shift_buf pat hwf hn
  rw [hlen, horder] at hbuf
  exact ⟨t, u, v, ht, hu, hv, hbuf.trans hbuf'.symm, hbuf⟩

end Sys2Proof.Machine
end

section
/-! PROOFS. Ready states: the pulses on them, and what CLEAR, REFRESH, SET and SHIFTSTATE leave in the whole state (rules R113,
R114, R130, R152): statements O17, O21, O14 and O50. -/

namespace Sys2Proof.Machine

/-! ### Latch and reset pulses from a ready state -/

/-- A latch pulse from a ready state shows the stages at the outputs and changes nothing else. -/
theorem pulseLatch_ready {s : State} (h : s.Ready) :
    pulseLatch s =
      { s with
        chain := { stage := s.chain.stage, out := s.chain.stage }
        trace := s.trace ++ Pulse.latch.events } := by
  obtain ⟨-, hoe, -, hlatch, -⟩ := h
  rw [pulseLatch_idle s hoe hlatch, ← hlatch]

/-- A reset pulse from a ready state clears the stages and changes nothing else. -/
theorem pulseReset_ready {s : State} (hw : s.WF) (h : s.Ready) :
    pulseReset s =
      { s with
        chain := { stage := zeros s.len, out := s.chain.out }
        trace := s.trace ++ Pulse.reset.events } := by
  obtain ⟨-, hstage, -⟩ := hw
  obtain ⟨-, hoe, -, -, hreset⟩ := h
  rw [pulseReset_driven s hoe, hstage, ← hreset]

/-! ### The last bit sent (rules R130, R152) -/

/-- SET's last bit on the wire is the pattern's lowest under MSF, its highest under LSF. -/
theorem lastSent_patternBits {o : BitOrder} {n pat : Nat} (level : Bool) (h : 0 < n) :
    lastSent (patternBits o n pat) level =
      match o with | .msf => pat.testBit 0 | .lsf => pat.testBit (n - 1) := by
  have hlast : (patternBits o n pat)[n - 1]? =
      some (match o with | .msf => pat.testBit 0 | .lsf => pat.testBit (n - 1)) := by
    rw [patternBits, List.getElem?_map, seq_getElem? (by omega)]
    cases o <;> simp
  rw [lastSent, List.getLastD_eq_getLast?, List.getLast?_eq_getElem?, patternBits_length, hlast]
  rfl

theorem lastSent_replicate (n : Nat) (v level : Bool) :
    lastSent (List.replicate n v) level = if n = 0 then level else v := by
  cases n with
  | zero => rfl
  | succ n => simp [lastSent, List.replicate_succ']

/-! ### The statements -/

/-- Settles O17: the `L` bits of SET replace all the stages, and the latch pulse shows them. -/
theorem setStoresThePattern : Obligations.SetStoresThePattern := by
  intro s n pat hwf hready hn
  obtain ⟨hbuf, hstage, -⟩ := hwf
  have hpos : 0 < s.len := by have := (len_bounds s).1; omega
  have hsent : sentStages (patternBits s.order s.len pat) s.chain.stage = shiftedInBits s.order s.len pat := by
    rw [sentStages_of_eq (by rw [patternBits_length, hstage]), reverse_patternBits]
  rw [exec, execSet_eq n pat s hbuf, if_pos hn, sendBits_ready _ hready, pulseLatch_ready, hsent,
    lastSent_patternBits _ hpos]
  · cases s.order <;> rfl
  · exact hready

/-- Settles O21: the copies sent are the copies stored, and the latch pulse shows the stages. -/
theorem shiftstateInsertsCopies : Obligations.ShiftstateInsertsCopies := by
  intro s cnt v hwf hready hcnt
  have hshift := shiftedState_ready (List.replicate cnt.toNat v) hwf hready (bits := List.replicate cnt.toNat v)
    List.length_replicate hcnt
  rw [exec, execShiftstate_eq, if_pos hcnt, hshift, List.reverse_replicate, lastSent_replicate, pulseLatch_ready]
  · rfl
  · exact hready

/-- Settles O14: the reset pulse clears the stages and the latch pulse shows them. -/
theorem clearZeroesBufferAndOutputs : Obligations.ClearZeroesBufferAndOutputs := by
  intro s hwf hready
  rw [exec, execClear_eq, pulseReset_ready hwf hready, pulseLatch_ready]
  · simp [respond, setBuf, Pulse.events, State.len]
  · exact hready

/-- REFRESH between ready states (rule R114). -/
theorem exec_refresh_ready {s : State} (h : s.Ready) :
    exec .refresh s = .next { s with
      chain := { stage := s.chain.stage, out := s.chain.stage }
      trace := s.trace ++ Pulse.latch.events
      rsp := some .ok } := by
  rw [exec, execRefresh_eq, pulseLatch_ready h]
  rfl

/-- Settles O50: the second latch pulse copies the same stages to the outputs. -/
theorem refreshIsIdempotent : Obligations.RefreshIsIdempotent := by
  intro s hready
  refine ⟨_, _, exec_refresh_ready hready, exec_refresh_ready ?_, rfl, ?_, ?_⟩
  · exact hready
  · simp [Pulse.events]
  · simp [Pulse.events]

end Sys2Proof.Machine
end

section
/-! PROOFS. Buffer, stages and outputs after a command or INIT (rules R174 to R176): statements O46, O47 and O48. -/

namespace Sys2Proof.Machine

/-! ### INIT (rule R112) -/

/-- INIT from the reset levels clears the stages and latches them. -/
theorem initBlock_chain {s : State} (hw : s.WF) (hlow : s.lvl = Levels.allLow) :
    (initBlock s).chain = { stage := zeros s.len, out := zeros s.len } := by
  obtain ⟨-, hstage, -⟩ := hw
  rw [initBlock_eq_replay, replay_eq]
  simp [hlow, hstage, initEvents, pulseEvents, Pulse.events, chainAfter, Chain.react, Levels.put, Levels.allLow,
    Chain.cleared]

/-! ### Commands that replace the whole chain (rule R174) -/

/-- The commands after which the stages hold what the buffer holds, whatever both held before. -/
theorem commandStage_eq_commandBuf_of_full {i : Instr} {s : State}
    (h : i = .clear ∨ (∃ idx v, i = .setbit idx v) ∨ (∃ idx cnt v, i = .setbits idx cnt v) ∨
      (s.order = .msf ∧ ∃ n p, i = .set n p) ∨
      (∃ n p, i = .shift n p ∧ n.toNat = s.len) ∨ (∃ cnt v, i = .shiftstate cnt v ∧ cnt.toNat = s.len)) :
    commandStage i s = commandBuf i s := by
  obtain rfl | ⟨idx, v, rfl⟩ | ⟨idx, cnt, v, rfl⟩ | ⟨ho, n, p, rfl⟩ | ⟨n, p, rfl, hn⟩ | ⟨cnt, v, rfl, hn⟩ := h
  · rfl
  · rfl
  · rfl
  · rw [commandStage, commandBuf, ho, shiftedInBits]
  · rw [commandStage, commandBuf, hn, Nat.sub_self, List.take_zero, List.take_zero]
  · rw [commandStage, commandBuf, hn, Nat.sub_self, List.take_zero, List.take_zero]

/-- Settles O46: INIT zeroes both sides, and the commands named send every bit they leave in the buffer. -/
theorem mirrorIsEstablished : Obligations.MirrorIsEstablished := by
  refine ⟨fun s hwf hreset => ?_, fun i s t hwf hready hexec hok hi => ?_⟩
  · obtain ⟨-, -, hlow, -⟩ := hreset
    rw [State.Mirror, initBlock_chain hwf hlow]
    rfl
  · obtain ⟨-, -, hbuf, hchain⟩ | ⟨hrej, -⟩ := exec_ready_cases hwf hready hexec
    · rw [State.Mirror, hbuf, hchain]
      exact commandStage_eq_commandBuf_of_full hi
    · exact absurd hok hrej

/-! ### Commands on a broken Mirror (rule R175) -/

/-- REFRESH and SETORDER leave buffer and stages alone. -/
theorem commandBuf_and_commandStage_kept {i : Instr} (s : State) (h : i = .refresh ∨ ∃ o, i = .setorder o) :
    commandBuf i s = s.buf ∧ commandStage i s = s.chain.stage := by
  obtain rfl | ⟨o, rfl⟩ := h <;> exact ⟨rfl, rfl⟩

/-- A shift command puts the same `m` bits below the old bits of the buffer and of the stages. -/
theorem exists_shiftedIn {i : Instr} {m : Nat} (s : State)
    (h : (∃ n p, i = .shift n p ∧ m = n.toNat) ∨ (∃ cnt v, i = .shiftstate cnt v ∧ m = cnt.toNat) ∨
      (∃ v, i = .shiftonebit v ∧ m = 1)) :
    ∃ low : Bits, low.length = m ∧ commandBuf i s = low ++ s.buf.take (s.len - m) ∧
      commandStage i s = low ++ s.chain.stage.take (s.len - m) := by
  obtain ⟨n, p, rfl, rfl⟩ | ⟨cnt, v, rfl, rfl⟩ | ⟨v, rfl, rfl⟩ := h
  · exact ⟨_, shiftedInBits_length _ _ _, rfl, rfl⟩
  · exact ⟨_, List.length_replicate, rfl, rfl⟩
  · exact ⟨[v], rfl, rfl, rfl⟩

/-- Settles O47: SET under LSF by its full result, the other commands by what they do to each side. -/
theorem setUnderLsfReversesTheChain : Obligations.SetUnderLsfReversesTheChain := by
  refine ⟨fun s n pat hwf hready hlsf hn => ?_, fun i s t hi hwf hready hexec hbroken => ?_,
    fun i m s t hwf hready hexec hok hi => ?_⟩
  · refine ⟨_, setStoresThePattern s n pat hwf hready hn, rfl, ?_, ?_⟩
    · simp only [hlsf, shiftedInBits]
    · simp only [State.Mirror, hlsf, shiftedInBits]
  · obtain ⟨hbuf', hstage'⟩ := commandBuf_and_commandStage_kept s hi
    obtain ⟨-, -, hbuf, hchain⟩ | ⟨-, -, hbuf, hchain⟩ := exec_ready_cases hwf hready hexec
    · rwa [State.Mirror, hbuf, hchain, hbuf', hstage']
    · rwa [State.Mirror, hbuf, hchain]
  · obtain ⟨low, hlow, hbuf', hstage'⟩ := exists_shiftedIn s hi
    obtain ⟨-, -, hbuf, hchain⟩ | ⟨hrej, -⟩ := exec_ready_cases hwf hready hexec
    · rw [hbuf, hchain, hbuf', hstage']
      refine ⟨fun k hk => ?_, fun k hmk hk => ⟨?_, ?_⟩⟩
      · rw [List.getElem?_append_left (hlow.symm ▸ hk), List.getElem?_append_left (hlow.symm ▸ hk)]
      · exact append_take_getElem?_moved hlow hmk hk
      · exact append_take_getElem?_moved hlow hmk hk
    · exact absurd hok hrej

/-! ### The outputs (rule R176) -/

theorem commandOut_eq_commandStage {i : Instr} (s : State) (ho : ∀ o, i ≠ .setorder o) (hv : ∀ v, i ≠ .shiftonebit v) :
    commandOut i s = commandStage i s := by
  cases i with
  | setorder o => exact absurd rfl (ho o)
  | shiftonebit v => exact absurd rfl (hv v)
  | _ => rfl

/-- Settles O48: each command's outputs against its stages; a rejected command moves neither. -/
theorem outputsFollowTheLatch : Obligations.OutputsFollowTheLatch := by
  refine ⟨fun s hwf hreset => ?_, fun i s t hwf hready hexec => ?_⟩
  · obtain ⟨-, -, hlow, -⟩ := hreset
    rw [State.Visible, initBlock_chain hwf hlow]
  · obtain ⟨hok, -, -, hchain⟩ | ⟨hrej, hstatus, -, hchain⟩ := exec_ready_cases hwf hready hexec
    · refine ⟨fun _ ho hv => ?_, fun hkept => ?_, fun v hi => ?_⟩
      · rw [State.Visible, hchain]
        exact commandOut_eq_commandStage s ho hv
      · obtain hrej | ⟨o, rfl⟩ := hkept
        · exact absurd hok hrej
        · exact hchain
      · subst hi
        rw [State.Visible, hchain]
        rfl
    · refine ⟨fun hok => absurd hok hrej, fun _ => hchain, fun v hi => ?_⟩
      subst hi
      exact absurd rfl hstatus

end Sys2Proof.Machine
end

section
/-! PROOFS. What a command's answer says, and what one step can do: rejection (rule R177), the length (rule R170) and the pin
events (rule R186): statements O26, O38 and O44. -/

namespace Sys2Proof.Machine

/-! ### The answer to a command, whatever the state (rules R177, R203) -/

theorem latchAndAccept_rsp {s t : State} (h : latchAndAccept s = .next t) : t.rsp = some .ok := by
  cases h
  rfl

/-- The form of the commands with a precondition: work and a latch pulse end with status OK, or the command is rejected. -/
theorem validated_cases {c : Prop} [Decidable c] {r : Result} {st : Status} {s t : State}
    (h : (if c then andThen r latchAndAccept else reject st s) = .next t) : t.rsp = some .ok ∨ t = respond st s := by
  split at h
  · obtain ⟨u, -, hu⟩ := andThen_eq_next.mp h
    exact .inl (latchAndAccept_rsp hu)
  · cases h
    exact .inr rfl

/-- A command in any state answers OK, or it does nothing but answer. -/
theorem exec_answer {i : Instr} {s t : State} (h : exec i s = .next t) :
    t.rsp = some .ok ∨ ∃ st, t = respond st s := by
  cases i with
  | clear | refresh | setorder =>
    cases h
    exact .inl rfl
  | shiftonebit v =>
    obtain ⟨u, -, hu⟩ := andThen_eq_next.mp h
    cases hu
    exact .inl rfl
  | set | setbit | setbits | shift | shiftstate => exact (validated_cases h).imp_right fun ht => ⟨_, ht⟩

/-- A command that does not answer OK leaves everything but the response (rule R177). -/
theorem exec_rejected {i : Instr} {s t : State} (h : exec i s = .next t) (hrej : t.rsp ≠ some .ok) :
    t = { s with rsp := t.rsp } := by
  obtain hok | ⟨st, rfl⟩ := exec_answer h
  · exact absurd hok hrej
  · rfl

/-- A legal header runs its command, an illegal one is rejected (rules R78, R82). -/
theorem runCommand_cases {hdr : Header} {pat : Nat} {s t : State} (h : runCommand hdr pat s = .next t) :
    (∃ i, exec i s = .next t) ∨ t = respond .illegalCommand s := by
  rw [runCommand] at h
  split at h
  · exact .inl ⟨_, h⟩
  · cases h
    exact .inr rfl

/-- Settles O26: a legal header is its command, an illegal one is only answered. -/
theorem rejectedCommandIsTheIdentity : Obligations.RejectedCommandIsTheIdentity := by
  refine ⟨fun _ _ _ => exec_rejected, fun hdr pat s t h hrej => ?_⟩
  obtain ⟨i, hi⟩ | rfl := runCommand_cases h
  · exact exec_rejected hi hrej
  · rfl

/-! ### What a step can do -/

/-- Without a reset, a step is INIT's, or a command's, or it waits (rules R71, R231). -/
theorem proceed_cases {s t : State} (h : proceed s = .next t) :
    (s.initDone = false ∧ t = initBlock s) ∨
    (s.initDone = true ∧ ∃ hdr pat rest, s.host = .command hdr pat :: rest ∧
      runCommand hdr pat { s with host := rest } = .next t) ∨
    (s.initDone = true ∧ t = s) := by
  rw [proceed] at h
  split at h
  · next hinit =>
    split at h
    · next hdr pat rest hhost => exact .inr (.inl ⟨hinit, hdr, pat, rest, hhost, h⟩)
    · cases h
      exact .inr (.inr ⟨hinit, rfl⟩)
  · next hinit =>
    cases h
    exact .inl ⟨by simpa using hinit, rfl⟩

/-- A step takes a reset, a reset inside what would have been done, a loss of power or a disturbance from the queue, or
proceeds (rules R215, R233, R246). -/
theorem step_cases {s t : State} (h : step s = .next t) :
    (∃ rest, s.host = .reset :: rest ∧ t = hardwareReset { s with host := rest }) ∨
    (∃ k rest u, s.host = .resetAfter k :: rest ∧ proceed { s with host := rest } = .next u ∧
      t = cutAfter k { s with host := rest } u) ∨
    (∃ rest, s.host = .powerCycle :: rest ∧ t = powerCycle { s with host := rest }) ∨
    (∃ rest, s.host = .disturbance :: rest ∧ t = disturbChain { s with host := rest }) ∨
    proceed s = .next t := by
  rw [step, serve] at h
  split at h
  · next rest hhost =>
    cases h
    exact .inl ⟨rest, hhost, rfl⟩
  · next k rest hhost =>
    obtain ⟨u, hu, ht⟩ := andThen_eq_next.mp h
    cases ht
    exact .inr (.inl ⟨k, rest, u, hhost, hu, rfl⟩)
  · next rest hhost =>
    cases h
    exact .inr (.inr (.inl ⟨rest, hhost, rfl⟩))
  · next rest hhost =>
    cases h
    exact .inr (.inr (.inr (.inl ⟨rest, hhost, rfl⟩)))
  · exact .inr (.inr (.inr (.inr h)))

/-! ### The form of the state through a step (rule R170) -/

theorem runCommand_form {hdr : Header} {pat : Nat} {s t : State} (hw : s.WF) (h : runCommand hdr pat s = .next t) :
    t.chips = s.chips ∧ t.WF := by
  obtain ⟨i, hi⟩ | rfl := runCommand_cases h
  · exact exec_form hw hi
  · exact ⟨rfl, respond_wf _ hw⟩

theorem proceed_form {s t : State} (hw : s.WF) (h : proceed s = .next t) : t.chips = s.chips ∧ t.WF := by
  obtain ⟨-, rfl⟩ | ⟨-, hdr, pat, rest, -, hrun⟩ | ⟨-, rfl⟩ := proceed_cases h
  · exact ⟨rfl, initBlock_wf hw⟩
  · exact runCommand_form (s := { s with host := rest }) hw hrun
  · exact ⟨rfl, hw⟩

theorem cutAfter_form {k : Nat} {s t : State} (hw : s.WF) : (cutAfter k s t).chips = s.chips ∧ (cutAfter k s t).WF := by
  have hreplay := replay_wf ((newEvents s t).take k) (driveLines_wf hw)
  rw [replay_eq] at hreplay
  obtain ⟨-, hstage, hout⟩ := hreplay
  rw [cutAfter_eq, replay_eq]
  exact ⟨rfl, zeros_length _, hstage, hout⟩

theorem step_form {s t : State} (hw : s.WF) (h : step s = .next t) : t.chips = s.chips ∧ t.WF := by
  obtain ⟨rest, -, rfl⟩ | ⟨k, rest, u, -, -, rfl⟩ | ⟨rest, -, rfl⟩ | ⟨rest, -, rfl⟩ | hproceed := step_cases h
  · exact ⟨rfl, hardwareReset_wf (s := { s with host := rest }) hw⟩
  · exact cutAfter_form (s := { s with host := rest }) hw
  · exact ⟨rfl, powerOn_wf _ _ _⟩
  · exact ⟨rfl, disturbChain_wf (s := { s with host := rest }) hw⟩
  · exact proceed_form hw hproceed

/-- Settles O38: every step keeps the chip count and a buffer of `8 * N` bits. -/
theorem lengthIsConstant : Obligations.LengthIsConstant := by
  intro s t hwf hstep
  obtain ⟨hchips, hbuf', -, -⟩ := step_form hwf hstep
  obtain ⟨hbuf, -, -⟩ := hwf
  have hlen : t.len = s.len := by rw [State.len, hchips, State.len]
  exact ⟨hlen, rfl, by rw [hbuf', hbuf, hlen], by rw [hbuf', State.len, Nat.mul_mod_right]⟩

/-! ### The pin events of a command (rules R50, R186) -/

/-- Transmits and then at most a reset and a latch pulse, `n` events in all. -/
def CommandShape (ps : List Pulse) (n : Nat) : Prop :=
  ∃ (bits : Bits) (tail : List Pulse), ps = bits.map .bit ++ tail ∧
    (tail = [] ∨ tail = [.latch] ∨ tail = [.reset, .latch]) ∧ (pulseEvents ps).length = n

theorem commandShape_bits_latch {bits : Bits} {n : Nat} (h : bits.length = n) :
    CommandShape (bits.map .bit ++ [.latch]) (3 * n + 2) := by
  have hbits : (pulseEvents (bits.map .bit)).length = 3 * n := h ▸ bitEvents_length bits
  refine ⟨bits, [.latch], rfl, .inr (.inl rfl), ?_⟩
  rw [pulseEvents_append, List.length_append, hbits]
  rfl

/-- The pulses of each command, and their number. -/
theorem commandPulses_shape (i : Instr) {s : State} (hb : s.buf.length = s.len) :
    CommandShape (commandPulses i s) (acceptedEvents s.len i) := by
  cases i with
  | clear => exact ⟨[], [.reset, .latch], rfl, .inr (.inr rfl), rfl⟩
  | refresh => exact ⟨[], [.latch], rfl, .inr (.inl rfl), rfl⟩
  | setorder => exact ⟨[], [], rfl, .inl rfl, rfl⟩
  | shiftonebit v => exact ⟨[v], [], rfl, .inl rfl, rfl⟩
  | set | shift => exact commandShape_bits_latch (patternBits_length _ _ _)
  | setbit | setbits => exact commandShape_bits_latch (by simpa using hb)
  | shiftstate => exact commandShape_bits_latch List.length_replicate

/-- The events a command appends to the trace. -/
theorem exec_trace {i : Instr} {s t : State} (hw : s.WF) (h : exec i s = .next t) :
    ∃ ps, t.trace = s.trace ++ pulseEvents ps ∧
      CommandShape ps (if t.rsp = some .ok then acceptedEvents s.len i else 0) := by
  obtain ⟨-, rfl⟩ | ⟨hk, rfl⟩ := exec_cases hw h
  · refine ⟨commandPulses i s, by simp, ?_⟩
    rw [respond_rsp, if_pos rfl]
    exact commandPulses_shape i hw.1
  · refine ⟨[], (List.append_nil _).symm, ?_⟩
    rw [respond_rsp, if_neg (by simpa using hk)]
    exact ⟨[], [], rfl, .inl rfl, rfl⟩

/-! ### The trace since hardware reset (rule R186) -/

theorem initBlock_trace (s : State) : (initBlock s).trace = s.trace ++ initEvents := by
  rw [initBlock_eq_replay, replay_eq, driveLines_trace]

/-- Whole pulses extend a trace that has begun. -/
theorem pulseTrain_append {evs : List PinEvent} (ps : List Pulse) (h : PulseTrain evs) (hne : evs ≠ []) :
    PulseTrain (evs ++ pulseEvents ps) := by
  obtain rfl | ⟨qs, rfl⟩ := h
  · exact absurd rfl hne
  · exact .inr ⟨qs ++ ps, by rw [pulseEvents_append, List.cons_append]⟩

/-- After INIT the trace is not empty: the reset line was raised. -/
theorem trace_ne_nil {s : State} (hinv : Inv s) (hinit : s.initDone = true) : s.trace ≠ [] := by
  intro hnil
  obtain ⟨-, -, -, -, hreset⟩ := hinv.afterInit hinit
  rw [hinv.levels, hnil] at hreset
  exact absurd hreset (by decide)

theorem runCommand_pulseTrain {hdr : Header} {pat : Nat} {s t : State} (hw : s.WF) (htrain : PulseTrain s.trace)
    (hne : s.trace ≠ []) (h : runCommand hdr pat s = .next t) : PulseTrain t.trace := by
  obtain ⟨i, hi⟩ | rfl := runCommand_cases h
  · obtain ⟨ps, htrace, -⟩ := exec_trace hw hi
    rw [htrace]
    exact pulseTrain_append ps htrain hne
  · exact htrain

theorem proceed_pulseTrain {s t : State} (hinv : Inv s) (h : proceed s = .next t) : PulseTrain t.trace := by
  obtain ⟨hinit, rfl⟩ | ⟨hinit, hdr, pat, rest, -, hrun⟩ | ⟨-, rfl⟩ := proceed_cases h
  · obtain ⟨-, -, -, -, -, -, hnil⟩ := hinv.beforeInit hinit
    rw [initBlock_trace, hnil]
    exact .inr ⟨[.reset, .latch], rfl⟩
  · have hne := trace_ne_nil hinv hinit
    exact runCommand_pulseTrain (s := { s with host := rest }) hinv.wf hinv.shape hne hrun
  · exact hinv.shape

theorem step_pulseTrain {s t : State} (hinv : Inv s) (h : step s = .next t) : PulseTrain t.trace := by
  obtain ⟨rest, -, rfl⟩ | ⟨k, rest, u, -, -, rfl⟩ | ⟨rest, -, rfl⟩ | ⟨rest, -, rfl⟩ | hproceed := step_cases h
  · exact .inl rfl
  · exact .inl rfl
  · exact .inl rfl
  · exact hinv.shape
  · exact proceed_pulseTrain hinv hproceed

/-- Settles O44: the pulses of each command counted, INIT's five events, and the trace after any step. -/
theorem pinEventsOfEachStep : Obligations.PinEventsOfEachStep := by
  refine ⟨fun i s t hwf hexec => ?_, initBlock_trace, rfl, fun _ _ => step_pulseTrain⟩
  obtain ⟨_, htrace, bits, tail, rfl, htail, hcount⟩ := exec_trace hwf hexec
  exact ⟨bits, tail, htrace, htail, hcount⟩

end Sys2Proof.Machine
end

section
/-! PROOFS. The operand preconditions decide the answer of a command and its code (rules R202, R204 to R207): statement O25. -/

namespace Sys2Proof.Machine

/-! ### The answer on the response port (rules R81, R203) -/

/-- A command whose status is OK completes, with code 0 on the port. -/
theorem exec_accepts {i : Instr} {s : State} (hw : s.WF) (hk : commandStatus i s = .ok) : Accepts (exec i s) := by
  obtain ⟨hbuf, -, -⟩ := hw
  exact ⟨_, exec_of_ok hbuf hk, rfl, rfl⟩

/-- A command whose status is an exception does nothing but answer it, with its code on the port. -/
theorem exec_rejects {i : Instr} {s : State} (hw : s.WF) (hk : commandStatus i s ≠ .ok) :
    Rejects (exec i s) s (commandStatus i s) (commandStatus i s).code := by
  obtain ⟨hbuf, -, -⟩ := hw
  exact ⟨exec_of_not_ok hbuf hk, rfl⟩

/-- A command that raises `st` when its precondition `met` is broken, and only then (rule R202). -/
theorem exec_decided_by_precondition {i : Instr} {s : State} {st : Status} {met broken : Prop} [Decidable met]
    (hw : s.WF) (hk : commandStatus i s = if met then .ok else st) (hst : st ≠ .ok) (hbroken : broken ↔ ¬ met) :
    (broken → Rejects (exec i s) s st st.code) ∧ (met → Accepts (exec i s)) := by
  refine ⟨fun hb => ?_, fun hm => exec_accepts hw (by rw [hk, if_pos hm])⟩
  obtain rfl : commandStatus i s = st := by rw [hk, if_neg (hbroken.mp hb)]
  exact exec_rejects hw hst

/-! ### The statement -/

/-- Settles O25: each of the five preconditions decides its command's status; the other four commands have none. -/
theorem preconditionsDecideTheStatus : Obligations.PreconditionsDecideTheStatus := by
  intro s hw
  refine ⟨fun n pat => ?set, fun n pat => ?shift, fun cnt v => ?shiftstate, fun idx v => ?setbit,
    fun idx cnt v => ?setbits, exec_accepts hw rfl, exec_accepts hw rfl, fun _ => exec_accepts hw rfl,
    fun _ => exec_accepts hw rfl⟩
  case set => exact exec_decided_by_precondition hw rfl (by decide) Iff.rfl
  case shift => exact exec_decided_by_precondition hw rfl (by decide) Nat.not_le.symm
  case shiftstate => exact exec_decided_by_precondition hw rfl (by decide) Nat.not_le.symm
  case setbit => exact exec_decided_by_precondition hw rfl (by decide) Nat.not_lt.symm
  case setbits => exact exec_decided_by_precondition hw rfl (by decide) Nat.not_le.symm

end Sys2Proof.Machine
end

section
/-! PROOFS. Hardware reset and INIT (rules R112, R230, R231): the reset values and what the ports show at them, and the step
taken from them: statements O29 and O30. -/

namespace Sys2Proof.Machine

/-! ### The reset values (rule R230) -/

theorem powerOn_atReset (n : ChipCount) (host : List HostInput) (d : Nat) : (State.powerOn n host d).AtReset :=
  ⟨rfl, rfl, rfl, rfl, rfl, rfl, rfl⟩

theorem hardwareReset_atReset (s : State) : (hardwareReset s).AtReset := ⟨rfl, rfl, rfl, rfl, rfl, rfl, rfl⟩

/-- At the reset values the port is not ready, no response stands at it, and the four lines are undriven. -/
theorem ports_of_atReset {s : State} (h : s.AtReset) :
    cmdReady s = false ∧ rspValid s = false ∧ ∀ p, lineLevel s p = none := by
  obtain ⟨-, -, -, hoe, hinit, hrsp, -⟩ := h
  exact ⟨hinit, by rw [rspValid, hrsp, Option.isSome_none], fun p => if_neg (by rw [hoe]; exact Bool.false_ne_true)⟩

/-- Settles O30: power on and hardware reset both give the reset values, and those decide what the ports show. -/
theorem resetValuesAreTheSpecs : Obligations.ResetValuesAreTheSpecs :=
  ⟨fun n host d => ⟨powerOn_atReset n host d, ports_of_atReset (powerOn_atReset n host d)⟩,
    fun s => ⟨hardwareReset_atReset s, ports_of_atReset (hardwareReset_atReset s)⟩,
    powerOn_atReset _ _ _⟩

/-! ### INIT from the reset values (rules R112, R231) -/

/-- With a command or nothing in front of the queue, a step is not cut short by anything from outside. -/
theorem step_eq_proceed {s : State} (h : ∀ x ∈ s.host.head?, ∃ hdr pat, x = .command hdr pat) :
    step s = proceed s := by
  rw [step, serve]
  cases hhost : s.host with
  | nil => rfl
  | cons x rest =>
    obtain ⟨hdr, pat, rfl⟩ := h x (by rw [hhost]; rfl)
    rfl

theorem proceed_eq_initBlock {s : State} (h : s.initDone = false) : proceed s = .next (initBlock s) := by
  rw [proceed, h]
  rfl

/-- INIT field by field; the chain and the trace have lemmas of their own. -/
theorem initBlock_eq (s : State) :
    initBlock s = { s with
      buf := zeros s.len
      order := .msf
      lvl := { s.lvl with latch := false, reset := true }
      oe := true
      initDone := true
      chain := (initBlock s).chain
      trace := (initBlock s).trace } := rfl

/-- Settles O29: nothing from outside cuts the step, so it is INIT's, taken from the reset values. -/
theorem initRunsAfterReset : Obligations.InitRunsAfterReset := by
  intro s hwf ⟨hbuf, horder, hlow, _, hinit, _, htrace⟩ hhost
  rw [step_eq_proceed hhost, proceed_eq_initBlock hinit, initBlock_eq, initBlock_chain hwf hlow, initBlock_trace,
    htrace, hlow, ← hbuf, ← horder]
  rfl

end Sys2Proof.Machine
end

section
/-! PROOFS. The decoder and the encoder (rules R74 to R78): encode then decode, decode then encode, the rows of the table
apart, what is read of the pattern bus; statements O1, O2, O4, O5 and O6. -/

namespace Sys2Proof

/-! ### Encode, then decode -/

@[simp] theorem BitOrder.ofFlag_flag (o : BitOrder) : BitOrder.ofFlag o.flag = o := by cases o <;> rfl

@[simp] theorem BitOrder.flag_ofFlag (f : Bool) : (BitOrder.ofFlag f).flag = f := by cases f <;> rfl

/-- A bus that carries no bit above the pattern is read as the pattern (rule R75). -/
theorem patternOf_of_lt {n : Operand} {pat : Nat} (h : pat < 2 ^ n.toNat) : patternOf n pat = pat := Nat.mod_eq_of_lt h

theorem patternOf_lt (n : Operand) (bus : Nat) : patternOf n bus < 2 ^ n.toNat := Nat.mod_lt _ (Nat.two_pow_pos _)

/-- Settles O1: each field of a packed header is the field packed, and a well-formed pattern is its own low bits. -/
theorem decodeEncodeAgree : Obligations.DecodeEncodeAgree := by
  intro i hi
  cases i with
  | set n pat | shift n pat =>
    have hpat : pat < 2 ^ n.toNat := of_decide_eq_true hi
    simp [encode, encodeHeader, encodePattern, decode, checkFields, patternOf_of_lt hpat]
  | clear | refresh | setorder | setbit | setbits | shiftstate | shiftonebit =>
    simp [encode, encodeHeader, decode, checkFields]

/-! ### Decode, then encode -/

/-- The decoder's checks give the command just when the reserved field and the unused ones are zero (rule R78). -/
theorem checkFields_eq_ok_iff {h : Header} {zero : Bool} {i j : Instr} :
    checkFields h zero j = .ok i ↔ rsvField h = 0#3 ∧ zero = true ∧ j = i := by
  by_cases hr : rsvField h = 0#3 <;> cases zero <;> simp [checkFields, hr]

/-- A header is packed from the values its fields have. -/
theorem packHeader_eq_of_fields {h : Header} {op : BitVec 4} {f : Bool} {a b : Operand} (hr : rsvField h = 0#3)
    (hop : (opField h).toNat = op.toNat) (hf : flagField h = f) (ha : aField h = a) (hb : bField h = b) :
    packHeader op f a b = h := by
  rw [← BitVec.eq_of_toNat_eq hop, ← hf, ← ha, ← hb, packHeader_fields hr]

/-- Settles O2: opcode by opcode, the fields that the command does not carry were checked to be zero. -/
theorem encodeDecodeAgree : Obligations.EncodeDecodeAgree := by
  intro h bus i hi
  unfold decode at hi
  dsimp only at hi
  split at hi
  case h_10 => cases hi
  all_goals
    next hop =>
    obtain ⟨hrsv, hzero, rfl⟩ := checkFields_eq_ok_iff.mp hi
    simp only [Bool.and_eq_true, Bool.not_eq_true', beq_iff_eq] at hzero
    refine ⟨?_, packHeader_eq_of_fields hrsv hop ?_ ?_ ?_, ?_⟩
    all_goals simp_all [← BitVec.toNat_inj, Instr.WellFormed, Instr.wellFormed, encodePattern, patternOf_lt]

/-! ### The rows of the table (rule R77) -/

/-- No opcode stands in two rows. -/
theorem opcodeRows_eq_of_opField_eq :
    ∀ r ∈ opcodeRows, ∀ q ∈ opcodeRows, opField r.pattern = opField q.pattern → r = q := by
  decide

/-- Settles O4: both rows have the header's opcode, and an opcode stands in one row. -/
theorem opcodeRowsAreDisjoint : Obligations.OpcodeRowsAreDisjoint := by
  intro h r q hr hq hrh hqh
  obtain ⟨hopr, -⟩ := (Machine.selects_iff_of_mem hr h).mp hrh
  obtain ⟨hopq, -⟩ := (Machine.selects_iff_of_mem hq h).mp hqh
  exact opcodeRows_eq_of_opField_eq r hr q hq (hopr.symm.trans hopq)

/-- Settles O5: the decoder run on each word. -/
theorem writtenWordsDecode : Obligations.WrittenWordsDecode := by
  refine ⟨?_, ?_, ?_, ?_, ?_, ?_, ?_, ?_, ?_, ?_, ?_, ?_, ?_, ?_⟩ <;> decide

/-! ### The pattern bus (rule R75) -/

theorem patternOf_eq_of_testBit_eq {n : Operand} {p q : Nat} (h : ∀ k < n.toNat, p.testBit k = q.testBit k) :
    patternOf n p = patternOf n q := by
  apply Nat.eq_of_testBit_eq
  intro k
  by_cases hk : k < n.toNat <;> simp [patternOf, Nat.testBit_mod_two_pow, hk, h]

/-- Sampling the bus on at least as many wires as the pattern has bits loses nothing of the pattern. -/
theorem patternOf_sampled {n : Operand} {len : Nat} (bus : Nat) (h : n.toNat ≤ len) :
    patternOf n (bus % 2 ^ len) = patternOf n bus :=
  Nat.mod_mod_of_dvd bus (Nat.pow_dvd_pow 2 h)

/-- The decoder looks at the bus for the pattern of SET and SHIFT only. -/
theorem decode_eq_of_patternOf_eq {h : Header} {p q : Nat}
    (hpat : opField h = 4#4 ∨ opField h = 7#4 → patternOf (aField h) p = patternOf (aField h) q) :
    decode h p = decode h q := by
  unfold decode
  dsimp only
  split
  case h_4 hop => rw [hpat (.inl (BitVec.eq_of_toNat_eq hop))]
  case h_7 hop => rw [hpat (.inr (BitVec.eq_of_toNat_eq hop))]
  all_goals rfl

theorem decode_set {h : Header} (hop : opField h = 4#4) (bus : Nat) :
    decode h bus = checkFields h (!flagField h && bField h == 0#16) (.set (aField h) (patternOf (aField h) bus)) := by
  simp [decode, hop]

theorem decode_shift {h : Header} (hop : opField h = 7#4) (bus : Nat) :
    decode h bus = checkFields h (!flagField h && bField h == 0#16) (.shift (aField h) (patternOf (aField h) bus)) := by
  simp [decode, hop]

end Sys2Proof

namespace Sys2Proof.Machine

/-- A SET longer than the buffer is rejected with its pattern unread (rule R204). -/
theorem exec_set_of_long {n : Operand} {s : State} (pat : Nat) (h : s.len < n.toNat) :
    exec (.set n pat) s = reject .lengthMismatch s :=
  if_neg (by simp [lengthIsExact, opVal, h.ne'])

/-- A SHIFT longer than the buffer is rejected with its pattern unread (rule R205). -/
theorem exec_shift_of_long {n : Operand} {s : State} (pat : Nat) (h : s.len < n.toNat) :
    exec (.shift n pat) s = reject .lengthMismatch s :=
  if_neg (by simp [lengthFits, opVal, h])

/-- Headers whose commands do the same, decoded with either bus, do the same. -/
theorem runCommand_eq_of_exec_eq {h : Header} {p q : Nat} {s : State} {zero : Bool} {i j : Instr}
    (hp : decode h (p % 2 ^ s.len) = checkFields h zero i) (hq : decode h (q % 2 ^ s.len) = checkFields h zero j)
    (hexec : exec i s = exec j s) : runCommand h p s = runCommand h q s := by
  rw [runCommand, runCommand, hp, hq]
  by_cases hr : rsvField h = 0#3 <;> cases zero <;> simp [checkFields, hr, hexec]

/-- Settles O6: a pattern that fits is decoded alike from both buses, a longer one is rejected unread. -/
theorem patternBusIsReadBelowItsLength : Obligations.PatternBusIsReadBelowItsLength := by
  intro h p q s hbus
  by_cases hlong : (opField h = 4#4 ∨ opField h = 7#4) ∧ s.len < (aField h).toNat
  · obtain ⟨hop | hop, hlen⟩ := hlong
    · exact runCommand_eq_of_exec_eq (decode_set hop _) (decode_set hop _)
        ((exec_set_of_long _ hlen).trans (exec_set_of_long _ hlen).symm)
    · exact runCommand_eq_of_exec_eq (decode_shift hop _) (decode_shift hop _)
        ((exec_shift_of_long _ hlen).trans (exec_shift_of_long _ hlen).symm)
  · have hdecode : decode h (p % 2 ^ s.len) = decode h (q % 2 ^ s.len) := decode_eq_of_patternOf_eq fun hop => by
      have hfits : (aField h).toNat ≤ s.len := Nat.le_of_not_lt fun hlen => hlong ⟨hop, hlen⟩
      rw [patternOf_sampled p hfits, patternOf_sampled q hfits, patternOf_eq_of_testBit_eq (hbus hop hfits)]
    rw [runCommand, runCommand, hdecode]

end Sys2Proof.Machine
end

section
/-! PROOFS. What SETBIT, SETBITS, SHIFTONEBIT, REFRESH and SETORDER leave in the whole state, and the in-place copy behind
ShiftForward (rules R94, R114, R115, R131, R132, R153): statements O11, O18, O19, O22, O15 and O16. -/

namespace Sys2Proof.Machine

/-! ### The in-place copy (rule R94) -/

/-- One turn of the copy loop: index `i` takes the bit `count` places below. -/
def copyBit (count : Nat) (buf : Bits) (i : Nat) : Bits := buf.set i (buf.getD (i - count) false)

theorem copyDown_eq_foldl (count len : Nat) (buf : Bits) :
    copyDown count len buf = (List.range' count (len - count)).reverse.foldl (copyBit count) buf := rfl

@[simp] theorem copyBit_length (count : Nat) (buf : Bits) (i : Nat) : (copyBit count buf i).length = buf.length :=
  List.length_set

theorem copyBit_getElem?_same {count i : Nat} {buf : Bits} (h : i < buf.length) :
    (copyBit count buf i)[i]? = buf[i - count]? := by
  rw [copyBit, List.getElem?_set_self h, List.getD_eq_getElem _ _ (by omega), List.getElem?_eq_getElem]

theorem copyBit_getElem?_ne {count i k : Nat} {buf : Bits} (h : i ≠ k) : (copyBit count buf i)[k]? = buf[k]? :=
  List.getElem?_set_ne h

/-- The loop over `m` indices from `count + m - 1` down to `count`: each takes the old bit `count` places below, since the
indices still to come lie below the ones written. -/
theorem foldl_copyBit_getElem? {count m : Nat} {buf : Bits} (hm : count + m ≤ buf.length) (k : Nat) (hk : count ≤ k) :
    ((List.range' count m).reverse.foldl (copyBit count) buf)[k]? =
      if k < count + m then buf[k - count]? else buf[k]? := by
  induction m generalizing buf with
  | zero => simp [Nat.not_lt.mpr hk]
  | succ m ih =>
    rw [List.range'_1_concat, List.reverse_concat, List.foldl_cons, ih (by rw [copyBit_length]; omega)]
    rcases Nat.lt_trichotomy k (count + m) with h | rfl | h
    · rw [if_pos h, if_pos (by omega), copyBit_getElem?_ne (by omega)]
    · rw [if_neg (by omega), if_pos (by omega), copyBit_getElem?_same (by omega)]
    · rw [if_neg (by omega), if_neg (by omega), copyBit_getElem?_ne (by omega)]

/-- Settles O11: above the `count` lowest bits the copy loop leaves the old bits moved up. -/
theorem inPlaceCopyRefinesShiftForward : Obligations.InPlaceCopyRefinesShiftForward := by
  intro count len buf new hbuf hcount _
  have hcopied : (copyDown count len buf).drop count = buf.take (len - count) := by
    apply List.ext_getElem?
    intro k
    rw [List.getElem?_drop, copyDown_eq_foldl, foldl_copyBit_getElem? (by omega) _ (by omega), List.getElem?_take,
      Nat.add_sub_cancel_left]
    by_cases hk : k < len - count
    · rw [if_pos (by omega), if_pos hk]
    · rw [if_neg (by omega), if_neg hk, List.getElem?_eq_none (by omega)]
  rw [hcopied, shiftedBuf]

/-! ### A whole buffer sent and latched (rules R97, R131, R132) -/

/-- How SETBIT and SETBITS end: a new buffer of `L` bits, sent whole, leaves nothing of the old stages and is latched. -/
theorem rewriteChain_ready {s : State} {b : Bits} (hwf : s.WF) (hready : s.Ready) (hb : b.length = s.len) :
    respond .ok (pulseLatch (setBuf b (sendBits b.reverse s))) = { s with
      buf := b
      lvl := { s.lvl with data := b.getD 0 false }
      chain := { stage := b, out := b }
      trace := s.trace ++ bitEvents b.reverse ++ Pulse.latch.events
      rsp := some .ok } := by
  obtain ⟨-, hstage, -⟩ := hwf
  have hne : b ≠ [] := by
    have := (len_bounds s).1
    exact List.ne_nil_of_length_pos (by omega)
  have hsent : sentStages b.reverse s.chain.stage = b := by
    rw [sentStages_of_eq (by rw [List.length_reverse, hb, hstage]), List.reverse_reverse]
  rw [sendBits_ready _ hready, hsent, lastSent_reverse _ hne, pulseLatch_ready]
  · rfl
  · exact hready

/-- Settles O18: one bit written, then the whole buffer sent and latched. -/
theorem setbitRewritesTheChain : Obligations.SetbitRewritesTheChain := by
  intro s idx v hwf hready hidx
  have hlen : (s.buf.set idx.toNat v).length = s.len := by rw [List.length_set, hwf.1]
  rw [exec, execSetbit_eq idx v s hwf.1, if_pos hidx, rewriteChain_ready hwf hready hlen]

/-- Settles O19: the run written, then the whole buffer sent and latched. -/
theorem setbitsRewritesTheChain : Obligations.SetbitsRewritesTheChain := by
  intro s idx cnt v hwf hready hrun
  have hlen : (runSet idx.toNat cnt.toNat v s.buf).length = s.len := by rw [runSet_length, hwf.1]
  rw [exec, execSetbits_eq idx cnt v s hwf.1, if_pos hrun, rewriteChain_ready hwf hready hlen]

/-! ### SHIFTONEBIT, REFRESH and SETORDER (rules R114, R115, R153) -/

/-- Settles O22: one bit shifted in and sent, nothing latched. -/
theorem shiftonebitInsertsWithoutLatch : Obligations.ShiftonebitInsertsWithoutLatch := by
  intro s v hwf hready
  have hone : 1 ≤ s.len := le_trans (by decide) (len_bounds s).1
  rw [exec, execShiftonebit_eq, shiftedState_ready [v] hwf hready (bits := [v]) (count := 1) rfl hone]
  rfl

/-- Settles O15: REFRESH is one latch pulse on a ready state. -/
theorem refreshLatchesTheStages : Obligations.RefreshLatchesTheStages :=
  fun _ hready => exec_refresh_ready hready

/-- Settles O16: SETORDER by its law; neither an event nor a precondition is involved. -/
theorem setorderStoresTheFlag : Obligations.SetorderStoresTheFlag :=
  fun s o => execSetorder_eq o s

end Sys2Proof.Machine
end

section
/-! PROOFS. What a command reads and writes, whatever it is (rules R25, R31, R81, R245): its frame, its lines, and its
outputs after any part of its events: statements O41, O42 and O49. -/

namespace Sys2Proof.Machine

/-! ### The response port is not read -/

/-- Settles O41: what a command does is said without the response port, and the answer overwrites the port. -/
theorem responseIsNeverRead : Obligations.ResponseIsNeverRead := by
  intro i s r hwf
  have hwf' : State.WF { s with rsp := r } := hwf
  by_cases hk : commandStatus i s = .ok
  · rw [exec_of_ok hwf.1 hk, exec_of_ok hwf'.1 hk, afterPulses_eq, afterPulses_eq]
    rfl
  · rw [exec_of_not_ok hwf.1 hk, exec_of_not_ok hwf'.1 hk]
    rfl

/-! ### The frame of a command (rule R31) -/

/-- The fields no command writes. -/
theorem exec_frame {i : Instr} {s t : State} (hw : s.WF) (h : exec i s = .next t) :
    t.chips = s.chips ∧ t.oe = s.oe ∧ t.initDone = s.initDone ∧ t.host = s.host := by
  obtain ⟨-, rfl⟩ | ⟨-, rfl⟩ := exec_cases hw h
  · rw [afterPulses_eq]
    exact ⟨rfl, rfl, rfl, rfl⟩
  · exact ⟨rfl, rfl, rfl, rfl⟩

/-- The commands that send no bit. -/
theorem commandPulses_of_no_bit {i : Instr} (s : State)
    (h : i = .clear ∨ i = .refresh ∨ (∃ o, i = .setorder o) ∨ (∃ p, i = .shift 0 p) ∨ (∃ v, i = .shiftstate 0 v)) :
    commandPulses i s = [.reset, .latch] ∨ commandPulses i s = [.latch] ∨ commandPulses i s = [] := by
  obtain rfl | rfl | ⟨o, rfl⟩ | ⟨p, rfl⟩ | ⟨v, rfl⟩ := h
  · exact .inl rfl
  · exact .inr (.inl rfl)
  · exact .inr (.inr rfl)
  · refine .inr (.inl ?_)
    rw [commandPulses, List.length_eq_zero_iff.mp (patternBits_length s.order (0 : Operand).toNat p)]
    rfl
  · exact .inr (.inl rfl)

/-- Latch and reset pulses leave the data level. -/
theorem exec_data_of_no_bit {i : Instr} {s t : State} (hw : s.WF) (h : exec i s = .next t)
    (hi : i = .clear ∨ i = .refresh ∨ (∃ o, i = .setorder o) ∨ (∃ p, i = .shift 0 p) ∨ (∃ v, i = .shiftstate 0 v)) :
    t.lvl.data = s.lvl.data := by
  obtain ⟨-, rfl⟩ | ⟨-, rfl⟩ := exec_cases hw h
  · obtain hps | hps | hps := commandPulses_of_no_bit s hi <;> rw [hps, afterPulses_eq] <;> rfl
  · rfl

/-- Idle levels differ in the data level at most. -/
theorem levels_eq_of_idle {l m : Levels} (hl : l.clock = false ∧ l.latch = false ∧ l.reset = true)
    (hm : m.clock = false ∧ m.latch = false ∧ m.reset = true) : m = { l with data := m.data } := by
  obtain ⟨_, _, _, _⟩ := l
  obtain ⟨_, _, _, _⟩ := m
  simp_all

/-- Settles O42: the frame of every command, and what the commands without a bit on the wire, SETORDER and SHIFTONEBIT leave
besides. -/
theorem commandsWriteOnlyTheirState : Obligations.CommandsWriteOnlyTheirState := by
  intro i s t hwf hready hexec
  obtain ⟨hchips, hoe, hinit, hhost⟩ := exec_frame hwf hexec
  have hlvl : t.lvl = { s.lvl with data := t.lvl.data } := by
    obtain ⟨-, -, hidle⟩ := hready
    exact levels_eq_of_idle hidle (exec_idle hwf hidle hexec)
  refine ⟨hchips, hoe, hinit, hhost, ?order, fun hi => ?buf, fun hi => ?lvl, hlvl, fun ⟨o, ho⟩ => ?setorder,
    fun ⟨v, hv⟩ => ?out⟩
  case order =>
    by_cases hi : ∃ o, i = .setorder o
    · obtain ⟨o, rfl⟩ := hi
      cases hexec
      exact .inr ⟨o, rfl, rfl⟩
    · exact .inl (exec_order hwf hexec (by simpa using hi))
  case buf =>
    obtain ⟨-, -, hbuf, -⟩ | ⟨-, -, hbuf, -⟩ := exec_ready_cases hwf hready hexec
    · rw [hbuf, (commandBuf_and_commandStage_kept s hi).1]
    · exact hbuf
  case lvl => rw [hlvl, exec_data_of_no_bit hwf hexec hi]
  case setorder =>
    subst ho
    cases hexec
    exact ⟨rfl, rfl⟩
  case out =>
    subst hv
    cases (shiftonebitInsertsWithoutLatch s v hwf hready).symm.trans hexec
    rfl

/-! ### The outputs inside a command (rule R245) -/

/-- A command's chain is what its events made of it. -/
theorem exec_chain {i : Instr} {s t : State} (hw : s.WF) (h : exec i s = .next t) :
    t.chain = chainAfter s.oe (newEvents s t) s.lvl s.chain := by
  obtain ⟨-, rfl⟩ | ⟨-, rfl⟩ := exec_cases hw h
  · simp [newEvents]
  · simp [newEvents, chainAfter]

/-- Transmits have no latch edge. -/
theorem count_latch_bitEvents (bits : Bits) : (bitEvents bits).count ⟨.latch, true⟩ = 0 := by
  induction bits with
  | nil => rfl
  | cons b bs ih => rw [bitEvents_cons, List.count_append, ih]; cases b <;> rfl

/-- A command has one rising latch edge at most. -/
theorem count_latch_newEvents {i : Instr} {s t : State} (hw : s.WF) (h : exec i s = .next t) :
    (newEvents s t).count ⟨.latch, true⟩ ≤ 1 := by
  obtain ⟨_, htrace, bits, tail, rfl, htail, -⟩ := exec_trace hw h
  rw [newEvents, htrace, List.drop_left, pulseEvents_append, List.count_append]
  have hbits : (pulseEvents (bits.map .bit)).count ⟨.latch, true⟩ = 0 := count_latch_bitEvents bits
  obtain rfl | rfl | rfl := htail <;> rw [hbits] <;> decide

/-- Settles O49: the part of the events before the one rising latch edge leaves the outputs, the part after it too. -/
theorem outputsNeverShowAnIntermediatePattern : Obligations.OutputsNeverShowAnIntermediatePattern := by
  intro i s t k hwf _ hexec
  rw [replay_eq, exec_chain hwf hexec]
  dsimp only
  by_cases hbefore : (⟨.latch, true⟩ : PinEvent) ∈ (newEvents s t).take k
  · right
    have hafter : (⟨.latch, true⟩ : PinEvent) ∉ (newEvents s t).drop k := by
      have hcount := count_latch_newEvents hwf hexec
      rw [← List.take_append_drop k (newEvents s t), List.count_append] at hcount
      have hpos := List.count_pos_iff.mpr hbefore
      exact List.count_eq_zero.mp (by omega)
    conv_rhs => rw [← List.take_append_drop k (newEvents s t), chainAfter_append]
    rw [chainAfter_out_of_no_latch _ _ _ _ hafter]
  · exact .inl (chainAfter_out_of_no_latch _ _ _ _ hbefore)

end Sys2Proof.Machine
end

section
/-! PROOFS. Commands and sequences of commands that come to the same (rules R132, R150, R152, R153): statements O52, O53 and
O54. -/

namespace Sys2Proof.Machine

/-! ### SETBITS of one bit is SETBIT (rule R132) -/

theorem andThen_next_right (r : Result) : andThen r .next = r := by cases r <;> rfl

theorem writeBits_singleton (v : Bool) (i : Nat) (s : State) : writeBits v [i] s = bbWrite i v s :=
  andThen_next_right _

theorem runIndices_one (idx : Nat) : runIndices idx 1 = [idx] := rfl

/-- Settles O54: a run of one index is that index, and it is in range when the index is. -/
theorem setbitsOfOneIsSetbit : Obligations.SetbitsOfOneIsSetbit := by
  intro s idx v
  have hone : opVal (1 : Operand) = 1 := rfl
  have hrange : rangeInBuffer idx 1 s = indexInRange idx s := by
    simp only [rangeInBuffer, indexInRange, hone, Nat.succ_le_iff]
  rw [exec, exec, execSetbits, execSetbit, hrange, hone, runIndices_one, writeBits_singleton]

/-! ### SHIFTSTATE is SHIFT of equal bits (rules R150, R152) -/

theorem bitsOfNat_of_equal_bits (n : Nat) (v : Bool) :
    bitsOfNat n (if v then 2 ^ n - 1 else 0) = List.replicate n v := by
  apply List.ext_getElem?
  intro k
  rw [bitsOfNat_getElem?, List.getElem?_replicate]
  by_cases hk : k < n <;> cases v <;> simp [hk, Nat.testBit_two_pow_sub_one]

/-- Equal bits read the same in both orders. -/
theorem patternBits_of_equal_bits (o : BitOrder) (n : Nat) (v : Bool) :
    patternBits o n (if v then 2 ^ n - 1 else 0) = List.replicate n v := by
  cases o <;> simp only [patternBits_eq, bitsOfNat_of_equal_bits, List.reverse_replicate]

theorem shiftedInBits_of_equal_bits (o : BitOrder) (n : Nat) (v : Bool) :
    shiftedInBits o n (if v then 2 ^ n - 1 else 0) = List.replicate n v := by
  rw [← reverse_patternBits, patternBits_of_equal_bits, List.reverse_replicate]

/-- Settles O53: both have one precondition, and the same bits go to the wire and to the buffer. -/
theorem shiftstateIsShiftOfEqualBits : Obligations.ShiftstateIsShiftOfEqualBits := by
  intro s cnt v
  rw [exec, exec, execShiftstate_eq, execShift_eq, patternBits_of_equal_bits, shiftedInBits_of_equal_bits]

/-! ### Single-bit shifts and a REFRESH are one SHIFT (rule R153) -/

theorem bitsOfNat_natOfBits (bits : Bits) : bitsOfNat bits.length (natOfBits bits) = bits := by
  apply List.ext_getElem?
  intro k
  rw [bitsOfNat_getElem?, natOfBits_testBit]
  by_cases hk : k < bits.length <;> simp [hk]

theorem execAll_cons {i : Instr} {s t : State} (is : List Instr) (h : exec i s = .next t) :
    execAll (i :: is) s = execAll is t := by
  rw [execAll, h, andThen_next]

/-- A shift command up to its latch pulse, as pulses. -/
theorem shiftedState_eq_afterPulses (bits low : Bits) (count : Nat) (s : State) :
    shiftedState bits low count s =
      afterPulses (bits.map .bit) (low ++ s.buf.take (s.len - count)) s.order (s.draws + count) s := by
  rw [shiftedState, sendBits_setBuf_pulses]

/-- One bit shifted in and answered, then others: all of them shifted in. -/
theorem shiftedState_after_one {s : State} (b : Bool) {bits : Bits} (hlen : bits.length < s.len) :
    respond .ok (shiftedState bits bits.reverse bits.length (respond .ok (shiftedState [b] [b] 1 s))) =
      respond .ok (shiftedState (b :: bits) (b :: bits).reverse (b :: bits).length s) := by
  have hbuf : (b :: s.buf.take (s.len - 1)).take (s.len - bits.length) =
      b :: s.buf.take (s.len - (bits.length + 1)) := by
    obtain ⟨m, hm⟩ : ∃ m, s.len - bits.length = m + 1 := ⟨s.len - bits.length - 1, by omega⟩
    rw [hm, List.take_succ_cons, List.take_take, show min m (s.len - 1) = s.len - (bits.length + 1) by omega]
  have hevents : pulseEvents ((b :: bits).map .bit) = pulseEvents ([b].map .bit) ++ pulseEvents (bits.map .bit) := rfl
  have hdraws : s.draws + 1 + bits.length = s.draws + (bits.length + 1) := by omega
  simp only [shiftedState_eq_afterPulses, afterPulses_eq, hevents, chainAfter_append, List.foldl_append,
    List.reverse_cons, List.append_assoc, List.length_cons, List.singleton_append, respond]
  rw [← hbuf, hdraws]
  rfl

/-- Bits shifted in one by one and then latched: the buffer and the chain after them all. -/
theorem execAll_shiftonebits_refresh (bits : Bits) {s : State} (hbuf : s.buf.length = s.len)
    (hlen : bits.length ≤ s.len) :
    execAll (bits.map .shiftonebit ++ [.refresh]) s =
      .next (respond .ok (pulseLatch (shiftedState bits bits.reverse bits.length s))) := by
  induction bits generalizing s with
  | nil =>
    have hnone : shiftedState [] [] 0 s = s := by
      rw [shiftedState, List.nil_append, Nat.sub_zero, ← hbuf, List.take_length]
      rfl
    rw [List.reverse_nil, List.length_nil, hnone]
    rfl
  | cons b bits ih =>
    have hone : exec (.shiftonebit b) s = .next (respond .ok (shiftedState [b] [b] 1 s)) := execShiftonebit_eq b s
    have hlatch : ∀ u : State, respond .ok (pulseLatch u) = respond .ok (pulseLatch (respond .ok u)) := fun _ => rfl
    have hbuf' : (shiftedState [b] [b] 1 s).buf.length = s.len := by
      have := len_bounds s
      rw [shiftedState, setBuf_buf, List.length_append, List.length_take, hbuf, List.length_singleton]
      omega
    rw [List.map_cons, List.cons_append, execAll_cons _ hone, ih (s := respond .ok (shiftedState [b] [b] 1 s)) hbuf'
      (Nat.le_of_succ_le hlen), hlatch, shiftedState_after_one b hlen, ← hlatch]

/-- Settles O52: the pattern of SHIFT has the bits in the order in which they were shifted in one by one. -/
theorem singleBitShiftsComposeToShift : Obligations.SingleBitShiftsComposeToShift := by
  intro s bits hwf hmsf hlen
  refine ⟨_, execAll_shiftonebits_refresh bits hwf.1 hlen, ?_⟩
  have hn : (BitVec.ofNat 16 bits.length).toNat = bits.length := by
    have := len_bounds s
    rw [BitVec.toNat_ofNat, Nat.mod_eq_of_lt (by omega)]
  have hpat : bitsOfNat bits.length (natOfBits bits.reverse) = bits.reverse := by
    rw [← List.length_reverse, bitsOfNat_natOfBits]
  rw [exec, execShift_eq, hn, if_pos hlen, hmsf, patternBits_eq, shiftedInBits]
  dsimp only
  rw [hpat, List.reverse_reverse]

end Sys2Proof.Machine
end

section
/-! PROOFS. The step from what stands in front of the host's queue: a command, INIT, waiting, a reset at any time, a loss of
power, a disturbance (rules R71, R99, R215, R231, R233, R246): statements O27, O28, O32, O33, O34, O37 and O31. -/

namespace Sys2Proof.Machine

/-! ### The step, input by input -/

theorem step_reset {s : State} {rest : List HostInput} (h : s.host = .reset :: rest) :
    step s = .next (hardwareReset { s with host := rest }) := by
  rw [step, serve, h]

/-- A reset inside what the step would have done without it. -/
theorem step_resetAfter_iff {s t : State} {k : Nat} {rest : List HostInput} (h : s.host = .resetAfter k :: rest) :
    step s = .next t ↔ ∃ u, proceed { s with host := rest } = .next u ∧ cutAfter k { s with host := rest } u = t := by
  rw [step, serve, h]
  simp only [andThen_eq_next, Host.Outcome.next.injEq]

theorem step_powerCycle {s : State} {rest : List HostInput} (h : s.host = .powerCycle :: rest) :
    step s = .next (powerCycle { s with host := rest }) := by
  rw [step, serve, h]

theorem step_disturbance {s : State} {rest : List HostInput} (h : s.host = .disturbance :: rest) :
    step s = .next (disturbChain { s with host := rest }) := by
  rw [step, serve, h]

/-- What can stand in front of the queue; with a command or nothing there, `step_eq_proceed` says what the step is. -/
theorem host_cases (s : State) :
    (∃ rest, s.host = .reset :: rest) ∨ (∃ k rest, s.host = .resetAfter k :: rest) ∨
      (∃ rest, s.host = .powerCycle :: rest) ∨ (∃ rest, s.host = .disturbance :: rest) ∨
      ∀ x ∈ s.host.head?, ∃ hdr pat, x = .command hdr pat := by
  rcases s.host with _ | ⟨x, rest⟩
  · simp
  · cases x <;> simp

theorem proceed_command {s : State} {hdr : Header} {pat : Nat} {rest : List HostInput} (hinit : s.initDone = true)
    (h : s.host = .command hdr pat :: rest) : proceed s = runCommand hdr pat { s with host := rest } := by
  rw [proceed, if_pos hinit, h]

/-- With no command in front of the queue a ready block waits. -/
theorem proceed_wait {s : State} (hinit : s.initDone = true) (h : ∀ x ∈ s.host.head?, ∀ hdr pat, x ≠ .command hdr pat) :
    proceed s = .next s := by
  rw [proceed, if_pos hinit]
  split
  · next hdr pat rest hhost => exact absurd rfl (h (.command hdr pat) (by rw [hhost]; rfl) hdr pat)
  · rfl

theorem step_command {s : State} {hdr : Header} {pat : Nat} {rest : List HostInput} (hinit : s.initDone = true)
    (h : s.host = .command hdr pat :: rest) : step s = runCommand hdr pat { s with host := rest } := by
  rw [step_eq_proceed (by simp [h]), proceed_command hinit h]

theorem runCommand_of_decode_ok {hdr : Header} {pat : Nat} {s : State} {i : Instr}
    (h : decode hdr (pat % 2 ^ s.len) = .ok i) : runCommand hdr pat s = exec i s := by
  rw [runCommand, h]

theorem runCommand_of_decode_error {hdr : Header} {pat : Nat} {s : State} {e : Illegal}
    (h : decode hdr (pat % 2 ^ s.len) = .error e) : runCommand hdr pat s = reject .illegalCommand s := by
  rw [runCommand, h]

theorem command_or_none (s : State) :
    (∃ hdr pat rest, s.host = .command hdr pat :: rest) ∨ ∀ x ∈ s.host.head?, ∀ hdr pat, x ≠ .command hdr pat := by
  rcases s.host with _ | ⟨x, rest⟩
  · simp
  · cases x <;> simp

/-! ### Commands, INIT and waiting (rules R53, R71, R234) -/

/-- Settles O27: the step takes the input and runs the command, which is the decoder's. -/
theorem stepRunsTheDecodedCommand : Obligations.StepRunsTheDecodedCommand := by
  intro s h pat rest hinit hhost
  rw [step_command hinit hhost]
  exact ⟨fun i hi => runCommand_of_decode_ok hi, fun e he => runCommand_of_decode_error he⟩

/-- A table word of 40 bits leaves nothing for the pattern bus (log entry 16). -/
theorem tablePattern_of_header_only (w : Nat) : tablePattern 40 w = 0 := by
  rw [tablePattern, Nat.shiftRight_eq_div_pow, Nat.div_eq_of_lt (Nat.mod_lt _ (Nat.two_pow_pos 40))]

theorem decode_of_decodeTableWord {w : Nat} {i : Instr} (h : decodeTableWord 40 w = some i) :
    decode (tableHeader 40 w) 0 = .ok i := by
  rw [decodeTableWord, tablePattern_of_header_only] at h
  split at h
  · next hok => rw [hok, Option.some.inj h]
  · cases h

theorem untilReady_initDone (s : State) : (untilReady s).initDone = true := by
  rw [untilReady]
  split
  · assumption
  · rfl

/-- Settles O28: the port is ready, and the word placed is the command presented. -/
theorem fetchWordIsRunNext : Obligations.FetchWordIsRunNext := by
  intro s w i hw
  rw [State.withFetchWord, step_command (s := present _ _ (untilReady s)) (untilReady_initDone s)
    (present_host _ _ _), tablePattern_of_header_only]
  refine runCommand_of_decode_ok ?_
  rw [Nat.zero_mod]
  exact decode_of_decodeTableWord hw

/-- Settles O33: the step is INIT's, which touches neither the queue nor the response. -/
theorem commandWaitsForInit : Obligations.CommandWaitsForInit := by
  intro s h pat rest hinit hhost
  exact ⟨initBlock s, by rw [step_eq_proceed (by simp [hhost]), proceed_eq_initBlock hinit], rfl, rfl, rfl⟩

/-- Settles O34: nothing cuts the step, and nothing is there to run. -/
theorem idleBlockWaits : Obligations.IdleBlockWaits := by
  intro s hinit hhost
  rw [step_eq_proceed (by simp [hhost]), proceed_wait hinit (by simp [hhost])]

/-- Settles O32: the input is the disturbance of the chain. -/
theorem disturbanceChangesTheChainOnly : Obligations.DisturbanceChangesTheChainOnly := by
  intro s rest hwf hhost
  exact ⟨_, step_disturbance hhost, rfl, disturbChain_wf (s := { s with host := rest }) hwf⟩

/-! ### No step stops (rules R99, R248) -/

/-- Every header presented ends with a response. -/
theorem runCommand_next (hdr : Header) (pat : Nat) {s : State} (hw : s.WF) :
    ∃ t, runCommand hdr pat s = .next t ∧ t.rsp ≠ none := by
  rw [runCommand]
  split
  · next i _ =>
    obtain ⟨t, ht⟩ := exec_next i hw
    refine ⟨t, ht, ?_⟩
    obtain hok | ⟨st, rfl⟩ := exec_answer ht
    · simp [hok]
    · simp
  · exact ⟨_, rfl, by simp⟩

theorem proceed_next {s : State} (hw : s.WF) : ∃ t, proceed s = .next t := by
  rw [proceed]
  split
  · split
    · next hdr pat rest _ =>
      obtain ⟨t, ht, -⟩ := runCommand_next hdr pat (s := { s with host := rest }) hw
      exact ⟨t, ht⟩
    · exact ⟨s, rfl⟩
  · exact ⟨_, rfl⟩

/-- Settles O37: each input of the queue has its next state, a command too. -/
theorem stepNeverStops : Obligations.StepNeverStops := by
  refine ⟨fun s hwf => ?_, fun h pat s hwf => runCommand_next h pat hwf⟩
  obtain ⟨rest, hhost⟩ | ⟨k, rest, hhost⟩ | ⟨rest, hhost⟩ | ⟨rest, hhost⟩ | hhost := host_cases s
  · exact ⟨_, step_reset hhost⟩
  · obtain ⟨u, hu⟩ := proceed_next (s := { s with host := rest }) hwf
    exact ⟨_, (step_resetAfter_iff hhost).mpr ⟨u, hu, rfl⟩⟩
  · exact ⟨_, step_powerCycle hhost⟩
  · exact ⟨_, step_disturbance hhost⟩
  · rw [step_eq_proceed hhost]
    exact proceed_next hwf

/-! ### A reset inside a step (rule R233) -/

theorem cutAfter_atReset (k : Nat) (s t : State) : (cutAfter k s t).AtReset := by
  rw [cutAfter_eq]
  exact hardwareReset_atReset s

theorem cutAfter_chips (k : Nat) (s t : State) : (cutAfter k s t).chips = s.chips := by
  rw [cutAfter_eq, hardwareReset_chips]

/-- On driven, idle lines the chain after the cut is the one the first `k` events left, whatever the host presents. -/
theorem cutAfter_chain_of_ready {s : State} (k : Nat) (host : List HostInput) (t : State) (h : s.Ready) :
    (cutAfter k { s with host := host } t).chain = (replay ((newEvents s t).take k) s).chain := by
  rw [cutAfter_eq, driveLines_ready (s := { s with host := host }) h, replay_eq, replay_eq]
  rfl

/-- A command leaves what the host still presents. -/
theorem runCommand_host {hdr : Header} {pat : Nat} {s t : State} (hw : s.WF) (h : runCommand hdr pat s = .next t) :
    t.host = s.host := by
  obtain ⟨i, hi⟩ | rfl := runCommand_cases h
  · obtain ⟨-, -, -, hhost⟩ := exec_frame hw hi
    exact hhost
  · rfl

/-- INIT cut short: raising `oe` with the reset line low has cleared the stages, and no event of INIT changes that; its latch
pulse comes fourth. -/
theorem cutAfter_initBlock_chain {s : State} (k : Nat) (hw : s.WF) (hlow : s.lvl = Levels.allLow) :
    (cutAfter k s (initBlock s)).chain =
      { stage := zeros s.len, out := if k < 4 then s.chain.out else zeros s.len } := by
  obtain ⟨-, hstage, -⟩ := hw
  rw [cutAfter_eq, newEvents_initBlock, replay_eq]
  match k with
  | 0 | 1 | 2 | 3 | 4 | k + 5 =>
    simp [hlow, hstage, initEvents, pulseEvents, Pulse.events, chainAfter, Chain.react, Levels.put, Levels.allLow,
      Chain.cleared]

/-- Settles O31: the queue says which step is cut; `cutAfter_eq` says what the cut leaves. -/
theorem resetAbandonsTheStep : Obligations.ResetAbandonsTheStep := by
  refine ⟨fun s rest hhost => ?between, fun s k rest hready hhost hnone => ?waiting,
    fun s k h pat rest hwf hready hhost => ?command, fun s k rest hwf hreset hhost => ?init, fun s rest hhost => ?power⟩
  case between => exact ⟨_, step_reset hhost, hardwareReset_atReset _, rfl, rfl, rfl⟩
  case waiting =>
    have hproceed : proceed { s with host := rest } = .next { s with host := rest } := proceed_wait hready.1 hnone
    have hevents : newEvents s { s with host := rest } = [] := List.drop_length
    refine ⟨_, (step_resetAfter_iff hhost).mpr ⟨_, hproceed, rfl⟩, cutAfter_atReset _ _ _, cutAfter_chips _ _ _, ?_, rfl⟩
    rw [cutAfter_chain_of_ready k rest _ hready, hevents, List.take_nil, replay_nil]
  case command =>
    obtain ⟨u, hu, -⟩ := runCommand_next h pat (s := { s with host := rest }) hwf
    have hproceed : proceed { s with host := .command h pat :: rest } = .next u := by
      rw [proceed_command (s := { s with host := .command h pat :: rest }) hready.1 rfl]
      exact hu
    have hqueue : u.host = rest := runCommand_host (s := { s with host := rest }) hwf hu
    have hwf' : State.WF { s with host := .command h pat :: rest } := hwf
    have hchain := cutAfter_chain_of_ready k (.command h pat :: rest) u hready
    refine ⟨_, u, hu, (step_resetAfter_iff hhost).mpr ⟨_, hproceed, rfl⟩, cutAfter_atReset _ _ _, (cutAfter_form hwf').2,
      cutAfter_chips _ _ _, hqueue, hchain, fun hlatch => ?_⟩
    rw [hchain, replay_eq]
    exact chainAfter_out_of_no_latch _ _ _ _ hlatch
  case init =>
    have hwf' : State.WF { s with host := rest } := hwf
    obtain ⟨-, -, hlow, -, hinit, -, -⟩ := hreset
    have hproceed : proceed { s with host := rest } = .next (initBlock { s with host := rest }) :=
      proceed_eq_initBlock hinit
    exact ⟨_, (step_resetAfter_iff hhost).mpr ⟨_, hproceed, rfl⟩, cutAfter_atReset _ _ _, (cutAfter_form hwf').2,
      cutAfter_chips _ _ _, rfl, cutAfter_initBlock_chain k hwf' hlow⟩
  case power => exact ⟨_, step_powerCycle hhost, rfl, powerOn_atReset _ _ _, rfl, rfl⟩

end Sys2Proof.Machine
end

section
/-! PROOFS. The invariant at power on and through every step (rules R32, R116, R170, R172, R186, R230): statements O35 and
O36. -/

namespace Sys2Proof.Machine

/-! ### States at the reset values -/

/-- The reset values alone give the invariant. -/
theorem inv_of_atReset {s : State} (hw : s.WF) (h : s.AtReset) : Inv s := by
  have hreset := h
  obtain ⟨-, -, hlow, -, hinit, -, htrace⟩ := h
  refine ⟨hw, fun _ => hreset, fun hdone => ?_, by rw [hlow, htrace]; rfl, .inl htrace⟩
  rw [hinit] at hdone
  cases hdone

/-- Settles O35: the reset values stand at power on. -/
theorem invariantHoldsAtPowerOn : Obligations.InvariantHoldsAtPowerOn :=
  fun n host d => inv_of_atReset (powerOn_wf n host d) (powerOn_atReset n host d)

/-! ### The level registers and the trace (rule R172) -/

/-- Events move the level registers as they lengthen the trace. -/
theorem levelsAfter_append (as bs : List PinEvent) :
    levelsAfter (as ++ bs) = bs.foldl (fun l e => l.put e.pin e.level) (levelsAfter as) := List.foldl_append

theorem exec_levels {i : Instr} {s t : State} (hw : s.WF) (hl : s.lvl = levelsAfter s.trace) (h : exec i s = .next t) :
    t.lvl = levelsAfter t.trace := by
  obtain ⟨-, rfl⟩ | ⟨-, rfl⟩ := exec_cases hw h
  · rw [respond_lvl, respond_trace, afterPulses_eq]
    dsimp only
    rw [levelsAfter_append, hl]
  · exact hl

/-! ### What a command and INIT do to the invariant -/

theorem inv_with_host {s : State} (host : List HostInput) (h : Inv s) : Inv { s with host := host } :=
  ⟨h.wf, h.beforeInit, h.afterInit, h.levels, h.shape⟩

/-- Between ready states the invariant is its parts: whole pulses that the level registers have followed. -/
theorem inv_of_ready {s : State} (hw : s.WF) (hr : s.Ready) (hl : s.lvl = levelsAfter s.trace)
    (htrain : PulseTrain s.trace) : Inv s := by
  refine ⟨hw, fun hinit => ?_, fun _ => hr, hl, htrain⟩
  obtain ⟨hdone, -⟩ := hr
  rw [hinit] at hdone
  cases hdone

theorem exec_ready {i : Instr} {s t : State} (hw : s.WF) (hr : s.Ready) (h : exec i s = .next t) : t.Ready := by
  obtain ⟨hinit, hoe, hidle⟩ := hr
  obtain ⟨-, hoe', hinit', -⟩ := exec_frame hw h
  exact ⟨hinit'.trans hinit, hoe'.trans hoe, exec_idle hw hidle h⟩

theorem runCommand_inv {hdr : Header} {pat : Nat} {s t : State} (hinv : Inv s) (hinit : s.initDone = true)
    (h : runCommand hdr pat s = .next t) : Inv t := by
  have hready := hinv.afterInit hinit
  have htrain := runCommand_pulseTrain hinv.wf hinv.shape (trace_ne_nil hinv hinit) h
  obtain ⟨i, hi⟩ | rfl := runCommand_cases h
  · exact inv_of_ready (exec_form hinv.wf hi).2 (exec_ready hinv.wf hready hi) (exec_levels hinv.wf hinv.levels hi)
      htrain
  · exact inv_of_ready hinv.wf hready hinv.levels htrain

theorem initBlock_inv {s : State} (hw : s.WF) (h : s.AtReset) : Inv (initBlock s) := by
  obtain ⟨-, -, hlow, -, -, -, htrace⟩ := h
  have htrace' : (initBlock s).trace = initEvents := by rw [initBlock_trace, htrace, List.nil_append]
  refine inv_of_ready (initBlock_wf hw) ⟨rfl, rfl, initBlock_idle hlow⟩ ?_ (.inr ⟨[.reset, .latch], htrace'⟩)
  rw [initBlock_lvl, hlow, htrace']
  rfl

theorem proceed_inv {s t : State} (hinv : Inv s) (h : proceed s = .next t) : Inv t := by
  obtain ⟨hinit, rfl⟩ | ⟨hinit, hdr, pat, rest, -, hrun⟩ | ⟨-, rfl⟩ := proceed_cases h
  · exact initBlock_inv hinv.wf (hinv.beforeInit hinit)
  · exact runCommand_inv (inv_with_host rest hinv) hinit hrun
  · exact hinv

/-- Settles O36: a reset and a loss of power lead to the reset values, a disturbance touches only the chain, and INIT and the
commands keep each part of the invariant. -/
theorem stepKeepsTheInvariant : Obligations.StepKeepsTheInvariant := by
  intro s t hinv hstep
  obtain ⟨rest, -, rfl⟩ | ⟨k, rest, u, -, -, rfl⟩ | ⟨rest, -, rfl⟩ | ⟨rest, -, rfl⟩ | hproceed := step_cases hstep
  · exact inv_of_atReset (hardwareReset_wf (inv_with_host rest hinv).wf) (hardwareReset_atReset _)
  · exact inv_of_atReset (cutAfter_form (inv_with_host rest hinv).wf).2 (cutAfter_atReset _ _ _)
  · exact inv_of_atReset (powerOn_wf _ _ _) (powerOn_atReset _ _ _)
  · exact ⟨disturbChain_wf (inv_with_host rest hinv).wf, hinv.beforeInit, hinv.afterInit, hinv.levels, hinv.shape⟩
  · exact proceed_inv hinv hproceed

end Sys2Proof.Machine
end

section
/-! PROOFS. The output ports and the observation port (rules R24, R33, R70, R72, R73): statement O55. -/

namespace Sys2Proof.Machine

/-- A pin event on the four lines (rules R26, R72). -/
theorem lineLevel_emit (s : State) (p q : Pin) (v : Bool) :
    lineLevel (emit p v s) q = if q = p then (if s.oe then some v else none) else lineLevel s q := by
  simp only [lineLevel, emit_oe, emit_lvl, levels_put_get]
  by_cases hq : q = p <;> simp [hq]

theorem lineLevel_of_ready {s : State} (h : s.Ready) (p : Pin) : lineLevel s p = some (s.lvl.get p) := by
  obtain ⟨-, hoe, -⟩ := h
  rw [lineLevel, if_pos hoe]

/-- Bit `i` of `obs_buf` is bit `i` of the buffer (rule R73). -/
theorem buf_getElem?_eq_obsBuf {s : State} {i : Nat} (hi : i < s.buf.length) :
    s.buf[i]? = some ((obsBuf s).testBit i) := by
  rw [obsBuf, natOfBits_testBit, List.getD_eq_getElem _ _ hi, List.getElem?_eq_getElem hi]

theorem obsOrder_eq_flag (s : State) : obsOrder s = s.order.flag := by
  rw [obsOrder]
  cases s.order <;> rfl

/-- The SETORDER header with flag `f` writes the order that `f` encodes, whatever the bus (rules R24, R76). -/
theorem runCommand_setorder (s : State) (pat : Nat) (f : Bool) :
    runCommand (packHeader 3#4 f 0#16 0#16) pat s = .next (respond .ok (setOrder (BitOrder.ofFlag f) s)) :=
  runCommand_of_decode_ok (i := .setorder (BitOrder.ofFlag f)) (by simp [decode, checkFields])

/-- Settles O55: each port read off the field behind it. -/
theorem portsShowTheState : Obligations.PortsShowTheState := by
  refine ⟨lineLevel_emit, fun s hready => ?lines, fun s hwf => ?buffer, fun s => ?order, fun s pat f => ?setorder⟩
  case lines =>
    have hline := lineLevel_of_ready hready
    obtain ⟨hinit, -, hclock, hlatch, hreset⟩ := hready
    exact ⟨hinit, hline, hline .data, (hline .clock).trans (congrArg some hclock),
      (hline .latch).trans (congrArg some hlatch), (hline .reset).trans (congrArg some hreset)⟩
  case buffer =>
    obtain ⟨hbuf, -, -⟩ := hwf
    exact ⟨hbuf ▸ natOfBits_lt s.buf, fun i hi => buf_getElem?_eq_obsBuf (hbuf.symm ▸ hi)⟩
  case order =>
    rw [obsOrder_eq_flag]
    cases s.order <;> rfl
  case setorder =>
    exact ⟨_, runCommand_setorder s pat f, by rw [obsOrder_eq_flag, respond_order, setOrder_order, BitOrder.flag_ofFlag]⟩

end Sys2Proof.Machine
end

section
/-! PROOFS. The block never reads the chain (rules R61, R216): a two-run relation, kept by the primitives, by their loops, by
every command and by the step: statement O40. -/

namespace Sys2Proof.Machine

/-! ### Two runs that differ in their chains -/

/-- Of two states that differ only in their chains, `g` makes two that differ only there. -/
def IgnoresChain (g : State → State) : Prop :=
  ∀ (s : State) (c : Chain), ∃ d, g { s with chain := c } = { g s with chain := d }

/-- The same of a meaning that can stop: where one run gives a next state the other gives one that differs only in the
chain. -/
def ReadsNoChain (f : State → Result) : Prop :=
  ∀ (s t : State) (c : Chain), f s = .next t → ∃ d, f { s with chain := c } = .next { t with chain := d }

theorem IgnoresChain.readsNoChain {g : State → State} (h : IgnoresChain g) : ReadsNoChain fun s => .next (g s) := by
  intro s t c hs
  cases hs
  obtain ⟨d, hd⟩ := h s c
  exact ⟨d, congrArg Host.Outcome.next hd⟩

theorem ReadsNoChain.andThen {f g : State → Result} (hf : ReadsNoChain f) (hg : ReadsNoChain g) :
    ReadsNoChain fun s => andThen (f s) g := by
  intro s t c hs
  obtain ⟨u, hu, ht⟩ := andThen_eq_next.mp hs
  obtain ⟨d, hd⟩ := hf s u c hu
  obtain ⟨e, he⟩ := hg u t d ht
  exact ⟨e, andThen_eq_next.mpr ⟨_, hd, he⟩⟩

/-- A choice whose condition does not depend on the chain. -/
theorem ReadsNoChain.ite {p : State → Prop} [DecidablePred p] {f g : State → Result} (hf : ReadsNoChain f)
    (hg : ReadsNoChain g) (hp : ∀ s c, p { s with chain := c } ↔ p s) :
    ReadsNoChain fun s => if p s then f s else g s := by
  intro s t c hs
  simp only [hp] at hs ⊢
  by_cases h : p s
  · rw [if_pos h] at hs ⊢
    exact hf s t c hs
  · rw [if_neg h] at hs ⊢
    exact hg s t c hs

/-- A meaning with an argument computed from the state without the chain. -/
theorem ReadsNoChain.ofArg {α : Type} {arg : State → α} {f : α → State → Result} (hf : ∀ a, ReadsNoChain (f a))
    (harg : ∀ s c, arg { s with chain := c } = arg s) : ReadsNoChain fun s => f (arg s) s := by
  intro s t c hs
  simp only [harg]
  exact hf (arg s) s t c hs

/-! ### Events, INIT and the BitBuffer primitives -/

theorem replay_ignoresChain (evs : List PinEvent) : IgnoresChain (replay evs) := by
  intro s c
  exact ⟨chainAfter s.oe evs s.lvl c, by rw [replay_eq, replay_eq]⟩

theorem initBlock_ignoresChain : IgnoresChain initBlock := by
  intro s c
  obtain ⟨d, hd⟩ := replay_ignoresChain initEvents (driveLines s) (driveLines { s with chain := c }).chain
  refine ⟨d, ?_⟩
  rw [initBlock_eq_replay, initBlock_eq_replay]
  exact congrArg (fun u : State => { u with buf := zeros s.len, order := .msf, initDone := true }) hd

theorem fault_readsNoChain (e : Fault) : ReadsNoChain fun _ => .fault e := by
  intro s t c hs
  cases hs

theorem accept_readsNoChain : ReadsNoChain accept :=
  IgnoresChain.readsNoChain fun _ c => ⟨c, rfl⟩

theorem reject_readsNoChain (st : Status) : ReadsNoChain (reject st) :=
  IgnoresChain.readsNoChain fun _ c => ⟨c, rfl⟩

theorem latchAndAccept_readsNoChain : ReadsNoChain latchAndAccept :=
  (IgnoresChain.readsNoChain (replay_ignoresChain Pulse.latch.events)).andThen accept_readsNoChain

theorem bbWrite_readsNoChain (i : Nat) (v : Bool) : ReadsNoChain (bbWrite i v) :=
  (IgnoresChain.readsNoChain fun _ c => ⟨c, rfl⟩).ite (fault_readsNoChain _) fun _ _ => Iff.rfl

theorem shiftForward_readsNoChain (count : Nat) : ReadsNoChain (shiftForward count) :=
  (IgnoresChain.readsNoChain fun _ c => ⟨c, rfl⟩).ite (fault_readsNoChain _) fun _ _ => Iff.rfl

/-! ### The loops -/

theorem sendStore_readsNoChain (l : List (Bool × Nat)) : ReadsNoChain (sendStore l) := by
  induction l with
  | nil => exact IgnoresChain.readsNoChain fun _ c => ⟨c, rfl⟩
  | cons p l ih =>
    exact ((IgnoresChain.readsNoChain (replay_ignoresChain (Pulse.bit p.1).events)).andThen
      (bbWrite_readsNoChain p.2 p.1)).andThen ih

theorem writeBits_readsNoChain (v : Bool) (is : List Nat) : ReadsNoChain (writeBits v is) := by
  induction is with
  | nil => exact IgnoresChain.readsNoChain fun _ c => ⟨c, rfl⟩
  | cons i is ih => exact (bbWrite_readsNoChain i v).andThen ih

theorem transmitBits_readsNoChain (is : List Nat) : ReadsNoChain (transmitBits is) := by
  induction is with
  | nil => exact IgnoresChain.readsNoChain fun _ c => ⟨c, rfl⟩
  | cons i is ih =>
    intro s t c hs
    rw [transmitBits] at hs ⊢
    rw [show bbRead i { s with chain := c } = bbRead i s from rfl]
    split at hs
    · next b _ =>
      obtain ⟨d, hd⟩ := replay_ignoresChain (Pulse.bit b).events s c
      rw [← transmit_eq_replay, ← transmit_eq_replay] at hd
      rw [hd]
      exact ih _ _ _ hs
    · cases hs

theorem retransmitAll_readsNoChain : ReadsNoChain retransmitAll :=
  ReadsNoChain.ofArg (arg := fun s => seq .msf s.len) transmitBits_readsNoChain fun _ _ => rfl

/-! ### The commands -/

/-- The commands with a precondition that end with a latch pulse. -/
theorem validated_readsNoChain {p : State → Prop} [DecidablePred p] {f : State → Result} (st : Status)
    (hf : ReadsNoChain f) (hp : ∀ s c, p { s with chain := c } ↔ p s) :
    ReadsNoChain fun s => if p s then andThen (f s) latchAndAccept else reject st s :=
  (hf.andThen latchAndAccept_readsNoChain).ite (reject_readsNoChain st) hp

theorem exec_readsNoChain (i : Instr) : ReadsNoChain (exec i) := by
  cases i with
  | clear =>
    have hpulses := replay_ignoresChain (pulseEvents [.reset, .latch])
    have hfill : ReadsNoChain fun s => accept (bbFill0 s) := IgnoresChain.readsNoChain fun _ c => ⟨c, rfl⟩
    exact hpulses.readsNoChain.andThen hfill
  | refresh => exact latchAndAccept_readsNoChain
  | setorder o => exact IgnoresChain.readsNoChain fun _ c => ⟨c, rfl⟩
  | set n pat =>
    exact validated_readsNoChain .lengthMismatch
      (ReadsNoChain.ofArg (arg := fun s => setSends s.order s.len pat) sendStore_readsNoChain fun _ _ => rfl)
      fun _ _ => Iff.rfl
  | setbit idx v =>
    exact validated_readsNoChain .indexOutOfRange
      ((bbWrite_readsNoChain (opVal idx) v).andThen retransmitAll_readsNoChain) fun _ _ => Iff.rfl
  | setbits idx cnt v =>
    exact validated_readsNoChain .indexOutOfRange
      ((writeBits_readsNoChain v (runIndices (opVal idx) (opVal cnt))).andThen retransmitAll_readsNoChain)
      fun _ _ => Iff.rfl
  | shift n pat =>
    exact validated_readsNoChain .lengthMismatch
      (ReadsNoChain.ofArg (arg := fun s => shiftSends s.order (opVal n) pat)
        (fun l => (shiftForward_readsNoChain (opVal n)).andThen (sendStore_readsNoChain l)) fun _ _ => rfl)
      fun _ _ => Iff.rfl
  | shiftstate cnt v =>
    exact validated_readsNoChain .lengthMismatch
      ((shiftForward_readsNoChain (opVal cnt)).andThen (sendStore_readsNoChain _)) fun _ _ => Iff.rfl
  | shiftonebit v =>
    exact ((shiftForward_readsNoChain 1).andThen (sendStore_readsNoChain (oneSend v))).andThen accept_readsNoChain

/-! ### The step -/

theorem runCommand_readsNoChain (hdr : Header) (pat : Nat) : ReadsNoChain (runCommand hdr pat) := by
  intro s t c hs
  cases hd : decode hdr (pat % 2 ^ s.len) with
  | ok i =>
    rw [runCommand_of_decode_ok hd] at hs
    rw [runCommand_of_decode_ok (s := { s with chain := c }) hd]
    exact exec_readsNoChain i s t c hs
  | error e =>
    rw [runCommand_of_decode_error hd] at hs
    rw [runCommand_of_decode_error (s := { s with chain := c }) hd]
    exact reject_readsNoChain _ s t c hs

theorem proceed_readsNoChain : ReadsNoChain proceed := by
  intro s t c hs
  obtain hinit | hinit := Bool.eq_false_or_eq_true s.initDone
  · obtain ⟨hdr, pat, rest, hhost⟩ | hnone := command_or_none s
    · rw [proceed_command hinit hhost] at hs
      rw [proceed_command (s := { s with chain := c }) hinit hhost]
      exact runCommand_readsNoChain hdr pat { s with host := rest } t c hs
    · cases (proceed_wait hinit hnone).symm.trans hs
      exact ⟨c, proceed_wait (s := { s with chain := c }) hinit hnone⟩
  · rw [proceed_eq_initBlock hinit] at hs
    rw [proceed_eq_initBlock (s := { s with chain := c }) hinit]
    exact initBlock_ignoresChain.readsNoChain s t c hs

/-- The cut of a step leaves a difference in the chain only. -/
theorem cutAfter_with_chain (k : Nat) (s t : State) (c d : Chain) :
    cutAfter k { s with chain := c } { t with chain := d } =
      { cutAfter k s t with chain := (cutAfter k { s with chain := c } { t with chain := d }).chain } := by
  rw [cutAfter_eq, cutAfter_eq]
  rfl

/-- Settles O40: both runs take the same input, and no part of the step looks at the chain. -/
theorem chainIsNeverRead : Obligations.ChainIsNeverRead := by
  intro s t c hstep
  obtain ⟨rest, hhost⟩ | ⟨k, rest, hhost⟩ | ⟨rest, hhost⟩ | ⟨rest, hhost⟩ | hhost := host_cases s
  · cases (step_reset hhost).symm.trans hstep
    exact ⟨c, step_reset (s := { s with chain := c }) hhost⟩
  · obtain ⟨u, hu, rfl⟩ := (step_resetAfter_iff hhost).mp hstep
    obtain ⟨d, hd⟩ := proceed_readsNoChain _ _ c hu
    have hcut := cutAfter_with_chain k { s with host := rest } u c d
    exact ⟨_, (step_resetAfter_iff (s := { s with chain := c }) hhost).mpr ⟨_, hd, hcut⟩⟩
  · cases (step_powerCycle hhost).symm.trans hstep
    exact ⟨_, step_powerCycle (s := { s with chain := c }) hhost⟩
  · cases (step_disturbance hhost).symm.trans hstep
    exact ⟨_, step_disturbance (s := { s with chain := c }) hhost⟩
  · rw [step_eq_proceed hhost] at hstep
    rw [step_eq_proceed (s := { s with chain := c }) hhost]
    exact proceed_readsNoChain s t c hstep

end Sys2Proof.Machine
end
